-- ==== Sys2Proof/Word.lean ====
section
/-! DEFINITION. The widths of the block (R1, 00_scope.md): bytes, 16-bit words, command words, payloads, colours. -/

namespace Sys2Proof

/-- An 8-bit register, memory cell or bus datum (R1). -/
abbrev Byte := BitVec 8

/-- A pair, `SP`, `PC` or a bus address (R1, R40). -/
abbrev Word := BitVec 16

/-- A command word `cmd[31:0]` at the command port (R70, R71). -/
abbrev CmdWord := BitVec 32

/-- The side operand `payload[127:0]`, read by `TIL` alone (R70, R80). -/
abbrev Payload := BitVec 128

/-- A colour index, `C0` to `C3`: its 2-bit code (R87). -/
abbrev Color := BitVec 2

end Sys2Proof
end

