-- ==== Sys2Proof/Syntax.lean ====
section
/-! DEFINITION. The abstract command type of R72 (30_encoding.md): 22 commands, with the operand codes of R83, R85, R86. -/

namespace Sys2Proof

/-- The 8-bit-only selectors, codes 0 to 7 (R83). -/
inductive Reg8 where
  | A | F | B | C | D | E | H | L
  deriving DecidableEq, Repr

/-- The 16-bit-only selectors, codes 8 to 13 (R83). -/
inductive Reg16 where
  | AF | BC | DE | HL | SP | PC
  deriving DecidableEq, Repr

/-- A register selector: the whole 4-bit code space of R83. The two reserved codes pass the mask test of
decoding and are refused by the command's own rule (R91), so they are operands. DESIGN CHOICE: log entry 12. -/
inductive Sel where
  | r8 (r : Reg8)
  | r16 (r : Reg16)
  | reserved14
  | reserved15
  deriving DecidableEq, Repr

/-- The addressing modes of R85; code 3 is reserved and refused by `RD16` itself (R91). -/
inductive Mode where
  | normal | increment | decrement | reserved
  deriving DecidableEq, Repr

/-- The flag selectors of R86. -/
inductive Flag where
  | Z | N | H | C
  deriving DecidableEq, Repr

/-- The 22 commands of R72, with the operands of their formats (R73 to R82). -/
inductive Instr where
  | rd8 (reg : Sel)
  | wr8 (reg : Sel) (v : Byte)
  | rd16 (reg : Sel) (mode : Mode)
  | wr16 (reg : Sel) (v : Word)
  | fget (flag : Flag)
  | fset (flag : Flag) (b : Bool)
  | imeget
  | imeset (b : Bool)
  | hwget
  | hwset (b : Bool)
  | icls (v : Byte)
  | intq
  | brd (addr : Word)
  | bwr (addr : Word) (data : Byte)
  | ldt
  | tget (id : Word)
  | tln (lo hi : Byte)
  | til (payload : Payload)
  | dset (color : Color) (x y : Byte)
  | dget (x y : Byte)
  | dupd
  | bgw
  deriving DecidableEq, Repr

end Sys2Proof
end

