-- ==== Sys2Proof/Decode.lean ====
section
/-! DEFINITION. The 32-bit codec of 30_encoding.md: operand codes (R83, R85, R86), the opcode table's masks
(R91), the total decoder (R90) from the formats R73 to R82, and the encoder of the same formats. -/

namespace Sys2Proof

/-- Bits `hi` down to `lo` of a command word: the notation `v[hi:lo]` of 00_scope.md section 6. -/
def field (w : CmdWord) (hi lo : Nat) : BitVec (hi - lo + 1) := w.extractLsb' lo (hi - lo + 1)

/-- The selector of a `reg` code (R83). -/
def Sel.ofCode (c : BitVec 4) : Sel :=
  match c.toNat with
  | 0 => .r8 .A
  | 1 => .r8 .F
  | 2 => .r8 .B
  | 3 => .r8 .C
  | 4 => .r8 .D
  | 5 => .r8 .E
  | 6 => .r8 .H
  | 7 => .r8 .L
  | 8 => .r16 .AF
  | 9 => .r16 .BC
  | 10 => .r16 .DE
  | 11 => .r16 .HL
  | 12 => .r16 .SP
  | 13 => .r16 .PC
  | 14 => .reserved14
  | _ => .reserved15

/-- The `reg` code of a selector (R83). -/
def Sel.code : Sel → BitVec 4
  | .r8 .A => 0
  | .r8 .F => 1
  | .r8 .B => 2
  | .r8 .C => 3
  | .r8 .D => 4
  | .r8 .E => 5
  | .r8 .H => 6
  | .r8 .L => 7
  | .r16 .AF => 8
  | .r16 .BC => 9
  | .r16 .DE => 10
  | .r16 .HL => 11
  | .r16 .SP => 12
  | .r16 .PC => 13
  | .reserved14 => 14
  | .reserved15 => 15

/-- The addressing mode of a `mode` code (R85). -/
def Mode.ofCode (c : BitVec 2) : Mode :=
  match c.toNat with
  | 0 => .normal
  | 1 => .increment
  | 2 => .decrement
  | _ => .reserved

/-- The `mode` code of an addressing mode (R85). -/
def Mode.code : Mode → BitVec 2
  | .normal => 0
  | .increment => 1
  | .decrement => 2
  | .reserved => 3

/-- The flag of a `flag` code (R86). -/
def Flag.ofCode (c : BitVec 2) : Flag :=
  match c.toNat with
  | 0 => .Z
  | 1 => .N
  | 2 => .H
  | _ => .C

/-- The `flag` code of a flag (R86). -/
def Flag.code : Flag → BitVec 2
  | .Z => 0
  | .N => 1
  | .H => 2
  | .C => 3

/-- One row of the opcode table: the bits set in `mask` are fixed to those of `pattern` (R91's table). -/
structure OpcodeRow where
  mnemonic : String
  pattern : CmdWord
  mask : CmdWord
  deriving DecidableEq, Repr

/-- The register-file rows of the mask and match table (30_encoding.md section 5). -/
def registerFileRows : List OpcodeRow :=
  [ ⟨"RD8", 0x10000000, 0xFF0FFFFF⟩, ⟨"WR8", 0x11000000, 0xFF0FFF00⟩,
    ⟨"RD16", 0x12000000, 0xFF03FFFF⟩, ⟨"WR16", 0x13000000, 0xFF0F0000⟩,
    ⟨"FGET", 0x14000000, 0xFF3FFFFF⟩, ⟨"FSET", 0x15000000, 0xFF3FFFFE⟩,
    ⟨"IMEGET", 0x16000000, 0xFFFFFFFF⟩, ⟨"IMESET", 0x17000000, 0xFFFFFFFE⟩,
    ⟨"HWGET", 0x18000000, 0xFFFFFFFF⟩, ⟨"HWSET", 0x19000000, 0xFFFFFFFE⟩,
    ⟨"ICLS", 0x1A000000, 0xFFFFFF00⟩, ⟨"INTQ", 0x1B000000, 0xFFFFFFFF⟩ ]

/-- The memory-bus rows of the mask and match table. -/
def memoryBusRows : List OpcodeRow :=
  [ ⟨"BRD", 0x20000000, 0xFF0000FF⟩, ⟨"BWR", 0x21000000, 0xFF000000⟩,
    ⟨"LDT", 0x22000000, 0xFFFFFFFF⟩, ⟨"TGET", 0x23000000, 0xFFFF0000⟩ ]

/-- The tile/pixel rows of the mask and match table. -/
def tilePixelRows : List OpcodeRow :=
  [ ⟨"TLN", 0x30000000, 0xFF0000FF⟩, ⟨"TIL", 0x31000000, 0xFFFFFFFF⟩,
    ⟨"DSET", 0x32000000, 0xFFFC0000⟩, ⟨"DGET", 0x33000000, 0xFFFF0000⟩,
    ⟨"DUPD", 0x34000000, 0xFFFFFFFF⟩, ⟨"BGW", 0x35000000, 0xFFFFFFFF⟩ ]

/-- The 22 rows of the opcode table (R90, R91). The decoder below is written from the formats instead; that
the two agree is a statement of the model. -/
def opcodeTable : List OpcodeRow := registerFileRows ++ memoryBusRows ++ tilePixelRows

/-- The row of the opcode table a command belongs to, by its mnemonic (R72). -/
def Instr.mnemonic : Instr → String
  | .rd8 _ => "RD8"
  | .wr8 _ _ => "WR8"
  | .rd16 _ _ => "RD16"
  | .wr16 _ _ => "WR16"
  | .fget _ => "FGET"
  | .fset _ _ => "FSET"
  | .imeget => "IMEGET"
  | .imeset _ => "IMESET"
  | .hwget => "HWGET"
  | .hwset _ => "HWSET"
  | .icls _ => "ICLS"
  | .intq => "INTQ"
  | .brd _ => "BRD"
  | .bwr _ _ => "BWR"
  | .ldt => "LDT"
  | .tget _ => "TGET"
  | .tln _ _ => "TLN"
  | .til _ => "TIL"
  | .dset _ _ _ => "DSET"
  | .dget _ _ => "DGET"
  | .dupd => "DUPD"
  | .bgw => "BGW"

/-- Why a word is `Invalid` (R90). -/
inductive DecodeError where
  /-- `op` is none of the 22 operation codes. -/
  | reservedOp
  /-- A must-be-zero field of the format is not zero. -/
  | mustBeZero
  deriving DecidableEq, Repr

/-- The command, if every must-be-zero field of its format is zero (R90). -/
def ifZero (zeros : Bool) (i : Instr) : Except DecodeError Instr :=
  if zeros then .ok i else .error .mustBeZero

/-- Decoding (R71, R90): the format is found from `op = cmd[31:24]` alone, the must-be-zero fields of the
format are checked, and the operands are the fields as they stand (R73 to R82). Only `TIL` reads the
payload (R70). -/
def decode (w : CmdWord) (payload : Payload) : Except DecodeError Instr :=
  match (field w 31 24).toNat with
  | 0x10 => ifZero (field w 19 0 == 0) (.rd8 (.ofCode (field w 23 20)))
  | 0x11 => ifZero (field w 19 8 == 0) (.wr8 (.ofCode (field w 23 20)) (field w 7 0))
  | 0x12 => ifZero (field w 17 0 == 0) (.rd16 (.ofCode (field w 23 20)) (.ofCode (field w 19 18)))
  | 0x13 => ifZero (field w 19 16 == 0) (.wr16 (.ofCode (field w 23 20)) (field w 15 0))
  | 0x14 => ifZero (field w 21 0 == 0) (.fget (.ofCode (field w 23 22)))
  | 0x15 => ifZero (field w 21 1 == 0) (.fset (.ofCode (field w 23 22)) (w.getLsbD 0))
  | 0x16 => ifZero (field w 23 0 == 0) .imeget
  | 0x17 => ifZero (field w 23 1 == 0) (.imeset (w.getLsbD 0))
  | 0x18 => ifZero (field w 23 0 == 0) .hwget
  | 0x19 => ifZero (field w 23 1 == 0) (.hwset (w.getLsbD 0))
  | 0x1A => ifZero (field w 23 8 == 0) (.icls (field w 7 0))
  | 0x1B => ifZero (field w 23 0 == 0) .intq
  | 0x20 => ifZero (field w 7 0 == 0) (.brd (field w 23 8))
  | 0x21 => .ok (.bwr (field w 23 8) (field w 7 0))
  | 0x22 => ifZero (field w 23 0 == 0) .ldt
  | 0x23 => ifZero (field w 23 16 == 0) (.tget (field w 15 0))
  | 0x30 => ifZero (field w 7 0 == 0) (.tln (field w 23 16) (field w 15 8))
  | 0x31 => ifZero (field w 23 0 == 0) (.til payload)
  | 0x32 => ifZero (field w 23 18 == 0) (.dset (field w 17 16) (field w 15 8) (field w 7 0))
  | 0x33 => ifZero (field w 23 16 == 0) (.dget (field w 15 8) (field w 7 0))
  | 0x34 => ifZero (field w 23 0 == 0) .dupd
  | 0x35 => ifZero (field w 23 0 == 0) .bgw
  | _ => .error .reservedOp

/-- One bit as a bit vector, for the `b` fields of R75 and R76. -/
def oneBit (b : Bool) : BitVec 1 := BitVec.ofBool b

/-- A field's value with its lowest bit at bit `lo` of the command word. -/
def place {n : Nat} (lo : Nat) (v : BitVec n) : CmdWord := v.setWidth 32 <<< lo

/-- The command word of a command: each operand in the bits its format gives it (R73 to R82), every other bit
zero. -/
def encode : Instr → CmdWord
  | .rd8 reg => place 24 0x10#8 ||| place 20 reg.code
  | .wr8 reg v => place 24 0x11#8 ||| place 20 reg.code ||| place 0 v
  | .rd16 reg mode => place 24 0x12#8 ||| place 20 reg.code ||| place 18 mode.code
  | .wr16 reg v => place 24 0x13#8 ||| place 20 reg.code ||| place 0 v
  | .fget flag => place 24 0x14#8 ||| place 22 flag.code
  | .fset flag b => place 24 0x15#8 ||| place 22 flag.code ||| place 0 (oneBit b)
  | .imeget => place 24 0x16#8
  | .imeset b => place 24 0x17#8 ||| place 0 (oneBit b)
  | .hwget => place 24 0x18#8
  | .hwset b => place 24 0x19#8 ||| place 0 (oneBit b)
  | .icls v => place 24 0x1A#8 ||| place 0 v
  | .intq => place 24 0x1B#8
  | .brd addr => place 24 0x20#8 ||| place 8 addr
  | .bwr addr data => place 24 0x21#8 ||| place 8 addr ||| place 0 data
  | .ldt => place 24 0x22#8
  | .tget id => place 24 0x23#8 ||| place 0 id
  | .tln lo hi => place 24 0x30#8 ||| place 16 lo ||| place 8 hi
  | .til _ => place 24 0x31#8
  | .dset color x y => place 24 0x32#8 ||| place 16 color ||| place 8 x ||| place 0 y
  | .dget x y => place 24 0x33#8 ||| place 8 x ||| place 0 y
  | .dupd => place 24 0x34#8
  | .bgw => place 24 0x35#8

/-- The payload presented beside the word: the operand of `TIL`, zero for the commands that ignore it (R70). -/
def encodePayload : Instr → Payload
  | .til payload => payload
  | _ => 0

/-- The command word in the bits of an instruction numbered as the opcode table numbers them: bits 31..0.
Bits at and above `nbits` are zero. -/
def wordOfBits (nbits w : Nat) : CmdWord := BitVec.ofNat 32 (w % 2 ^ nbits)

/-- The payload in those bits: the 128 bits that follow the command word. DESIGN CHOICE: log entry 13. -/
def payloadOfBits (nbits w : Nat) : Payload := BitVec.ofNat 128 (w % 2 ^ nbits / 2 ^ 32)

/-- What the decoder reads from an instruction whose bits are `w`. -/
def decodeTableWord (nbits w : Nat) : Option Instr :=
  match decode (wordOfBits nbits w) (payloadOfBits nbits w) with
  | .ok i => some i
  | .error _ => none

end Sys2Proof
end

