-- ==== Sys2Proof/Config.lean ====
section
/-! DEFINITION. The configuration record of R2 (00_scope.md): fixed for one machine, never changed by a step. -/

namespace Sys2Proof

/-- The parameters of R2, each under its own name. -/
structure Config where
  addrIE : Word
  addrIF : Word
  addrLCDC : Word
  addrSCY : Word
  addrSCX : Word
  lcdcTileDataBit : Nat
  lcdcBgMapBit : Nat
  lcdcBgEnableBit : Nat
  tileStride : Nat
  lowIdBaseWhenClear : Word
  echoMirror : Bool
  memReset : Byte
  fbReset : Color
  bgEnableGatesUpdate : Bool
  deriving DecidableEq, Repr

/-- The defaults of R2, which the spec takes as the values of this hardware. Every operation takes the record as
an argument, and so do the commands, the step and the reset state (`execWith`, `stepWith`, `State.resetWith`);
`exec`, `step` and `State.reset` are those at these defaults. PRESUMED for the rows R2 marks
'from general knowledge' and DESIGN CHOICE for the rest the source leaves open: log entry 7 (unsafe),
8 (`memReset`, unsafe), 9 (`fbReset`, unsafe). -/
def Config.hardware : Config where
  addrIE := 0xFFFF
  addrIF := 0xFF0F
  addrLCDC := 0xFF40
  addrSCY := 0xFF42
  addrSCX := 0xFF43
  lcdcTileDataBit := 4
  lcdcBgMapBit := 3
  lcdcBgEnableBit := 0
  tileStride := 16
  lowIdBaseWhenClear := 0x8800
  echoMirror := false
  memReset := 0x00
  fbReset := 0
  bgEnableGatesUpdate := false

end Sys2Proof
end

