-- ==== Sys2Proof/Machine/State.lean ====
section
/-! DEFINITION. The state of the block (10_state.md) as plain data, the reasons a step can stop, and the
state after reset. -/

namespace Sys2Proof.Machine

/-- The causes of an abort (R181). `regionRange` is raised by no command: R54 makes it unreachable and keeps
it as a named outcome. DEDUCED: log entry 16. -/
inductive Cause where
  | wrongWidth
  | regionRange
  | tileIndexRange
  | displayBounds
  | reservedEncoding
  deriving DecidableEq, Repr

/-- The `data` part of a response, one form per width and meaning of R84's table. DESIGN CHOICE: log entry 14. -/
inductive Data where
  /-- No data: `WR8 WR16 FSET IMESET HWSET BWR DSET DUPD`. -/
  | none
  /-- 8 bits: `RD8`, `BRD`. -/
  | byte (v : Byte)
  /-- 16 bits: `RD16`. -/
  | word (v : Word)
  /-- 1 bit: `FGET`, `IMEGET`, `HWGET`. -/
  | bit (v : Bool)
  /-- Five interrupt lines: `ICLS`, packed by R88. -/
  | lines (v : BitVec 5)
  /-- Ten interrupt lines: `INTQ`, packed by R88. -/
  | linePair (v : BitVec 10)
  /-- One tile line: `TLN`, packed by R87. -/
  | tileLine (v : BitVec 16)
  /-- One tile: `TIL`, `TGET`, packed by R87. -/
  | tile (v : BitVec 128)
  /-- A count and that many packed tiles: `LDT` (R89). -/
  | tiles (count : BitVec 9) (list : List (BitVec 128))
  /-- One colour code: `DGET`. -/
  | color (c : Color)
  /-- `enabled`, `scroll_y`, `scroll_x`, `bottom`, `right`: `BGW` (33 bits). -/
  | window (v : BitVec 33)
  deriving DecidableEq, Repr

/-- A response (R84): `OK` with data, or `ABORT` with the cause and no data. -/
inductive Response where
  | ok (data : Data)
  | abort (cause : Cause)
  deriving DecidableEq, Repr

/-- What the owner can do to the block (R70, R188): present a command word with its payload, or assert the
reset input. DESIGN CHOICE: log entries 1 and 5. -/
inductive PortInput where
  | command (word : CmdWord) (payload : Payload)
  | reset
  deriving DecidableEq, Repr

/-- The frame buffer `FB` (R24, R160): 144 scan lines, each of 160 colours. -/
abbrev FrameBuffer := Vector (Vector Color 160) 144

/-- The whole state: the Register File (R10), the bus cells (R20), the frame buffer (R24), the abort latch
(R27), and two fields of the model's own, the command port and the response port (R70). -/
structure State where
  A : Byte
  /-- The flag byte: bits 7 to 4 are Z, N, H, C; bits 3 to 0 are 0 in every reachable state (R11, R12). -/
  F : Byte
  B : Byte
  C : Byte
  D : Byte
  E : Byte
  H : Byte
  L : Byte
  SP : Word
  PC : Word
  /-- The interrupt-master-enable latch (R17). -/
  IME : Bool
  /-- The pending-enable latch `has_waited` (R18). -/
  HW : Bool
  /-- The twelve arrays of R20 as one list of cells keyed by bus address, in the form `Memory.wf`; a cell
  not listed holds `cfg.MEM_RESET` of the machine's configuration. DESIGN CHOICE: log entry 10. -/
  mem : List Host.Cell
  fb : FrameBuffer
  /-- The abort latch `ABORTED` (R27). -/
  aborted : Option Cause
  /-- MODEL'S OWN: the owner's inputs, the first being the one now presented. DESIGN CHOICE: log entry 1. -/
  port : List PortInput
  /-- MODEL'S OWN: the last response given at the response port. DESIGN CHOICE: log entry 2. -/
  response : Option Response
  deriving DecidableEq, Repr

/-- Why the machine stops. -/
inductive Fault where
  /-- The block is aborted and the owner does not assert reset: no command executes (R184; the treatment
  'stuck' of I17, 93_implementation_defined.md). Raised by `step` alone, never by a command's meaning. Safe:
  the model stops where the hardware stands still. DESIGN CHOICE: log entry 4. -/
  | blockDead (cause : Cause)
  deriving DecidableEq, Repr

/-- Why the model has no meaning for an instruction. -/
inductive Refusal where
  /-- The instruction is not modelled. Raised only by an arm of `exec`, and no arm raises it. Safe: the model
  stops. -/
  | notModelled (mnemonic : String)
  deriving DecidableEq, Repr

/-- The machine of a configuration right after reset (R200): the Register File zero (R30), every cell
`cfg.MEM_RESET` (R31: no cell listed, and `Memory.unlisted cfg` is what such a cell holds), every pixel
`cfg.FB_RESET` (R32), no abort (R33), nothing at either port. -/
def State.resetWith (cfg : Config) : State where
  A := 0
  F := 0
  B := 0
  C := 0
  D := 0
  E := 0
  H := 0
  L := 0
  SP := 0
  PC := 0
  IME := false
  HW := false
  mem := []
  fb := Vector.replicate 144 (Vector.replicate 160 cfg.fbReset)
  aborted := none
  port := []
  response := none

/-- This hardware right after reset: `State.resetWith` at the defaults of R2. -/
def State.reset : State := State.resetWith Config.hardware

end Sys2Proof.Machine
end

