-- ==== Sys2Proof/Machine/Ops.lean ====
section
/-! DEFINITION. The named operations: bus cells (20_memory.md), frame-buffer pixels (R24), completing a command
and taking an abort (60_exceptions.md), and the reset input (R200). -/

namespace Sys2Proof.Machine

/-! ### The cell list -/

/-- What a cell that is not listed holds: `cfg.MEM_RESET` (R31). DESIGN CHOICE: log entry 8. -/
def Memory.unlisted (cfg : Config) : Byte := cfg.memReset

/-- The content of the cell with key `k`. -/
def Memory.read (cfg : Config) (m : List Host.Cell) (k : Nat) : Byte :=
  match m with
  | [] => Memory.unlisted cfg
  | (k', v) :: rest => if k = k' then v else Memory.read cfg rest k

/-- A cell put in its place by rising key. -/
def Memory.insert (m : List Host.Cell) (k : Nat) (v : Byte) : List Host.Cell :=
  match m with
  | [] => [(k, v)]
  | (k', v') :: rest => if k < k' then (k, v) :: (k', v') :: rest else (k', v') :: Memory.insert rest k v

/-- The cell list with cell `k` set to `v`. A cell set to what an unlisted cell holds is not listed. -/
def Memory.write (cfg : Config) (m : List Host.Cell) (k : Nat) (v : Byte) : List Host.Cell :=
  let others := m.filter fun cell => cell.1 != k
  if v = Memory.unlisted cfg then others else Memory.insert others k v

/-- The canonical form: keys rising strictly, every key a bus address, no cell equal to an unlisted one. -/
def Memory.wf (cfg : Config) (m : List Host.Cell) : Bool :=
  decide (m.Pairwise fun a b => a.1 < b.1) && m.all fun cell => cell.1 < 65536 && cell.2 != Memory.unlisted cfg

/-! ### The address decoder -/

/-- The twelve regions of R41. -/
inductive Region where
  | rom0 | romX | vram | eram | wram0 | wramX | echo | oam | unused | io | hram | ie
  deriving DecidableEq, Repr

/-- The base address of a region (R41). -/
def Region.base : Region → Nat
  | .rom0 => 0x0000
  | .romX => 0x4000
  | .vram => 0x8000
  | .eram => 0xA000
  | .wram0 => 0xC000
  | .wramX => 0xD000
  | .echo => 0xE000
  | .oam => 0xFE00
  | .unused => 0xFEA0
  | .io => 0xFF00
  | .hram => 0xFF80
  | .ie => 0xFFFF

/-- The size of a region in cells (R41, R20). -/
def Region.size : Region → Nat
  | .rom0 => 16384
  | .romX => 16384
  | .vram => 8192
  | .eram => 8192
  | .wram0 => 4096
  | .wramX => 4096
  | .echo => 7680
  | .oam => 160
  | .unused => 96
  | .io => 128
  | .hram => 127
  | .ie => 1

/-- `Route` of R42 without a mirror: the region of an address and the cell's index in it. -/
def routeFixed (a : Nat) : Region × Nat :=
  if a ≤ 0x3FFF then (.rom0, a - 0x0000)
  else if a ≤ 0x7FFF then (.romX, a - 0x4000)
  else if a ≤ 0x9FFF then (.vram, a - 0x8000)
  else if a ≤ 0xBFFF then (.eram, a - 0xA000)
  else if a ≤ 0xCFFF then (.wram0, a - 0xC000)
  else if a ≤ 0xDFFF then (.wramX, a - 0xD000)
  else if a ≤ 0xFDFF then (.echo, a - 0xE000)
  else if a ≤ 0xFE9F then (.oam, a - 0xFE00)
  else if a ≤ 0xFEFF then (.unused, a - 0xFEA0)
  else if a ≤ 0xFF7F then (.io, a - 0xFF00)
  else if a ≤ 0xFFFE then (.hram, a - 0xFF80)
  else (.ie, 0)

/-- `Route` of R42; with `cfg.ECHO_MIRROR` an Echo address is routed as the work-RAM address it mirrors (R49). -/
def route (cfg : Config) (a : Word) : Region × Nat :=
  if cfg.echoMirror && 0xE000 ≤ a.toNat && a.toNat ≤ 0xFDFF then routeFixed (a.toNat - 0x2000)
  else routeFixed a.toNat

/-- The key of cell `index` of a region in the one cell list. -/
def cellKey (cell : Region × Nat) : Nat := cell.1.base + cell.2

/-- `MemRead(a, 1)` (R46): the content of the cell `Route(a)`; total, without side effect. -/
def busRead (cfg : Config) (m : List Host.Cell) (a : Word) : Byte := Memory.read cfg m (cellKey (route cfg a))

/-- `MemWrite(a, 1, v)` (R47): the cell `Route(a)` set to all 8 bits of `v`; total, no protection. -/
def busWrite (cfg : Config) (m : List Host.Cell) (a : Word) (v : Byte) : List Host.Cell :=
  Memory.write cfg m (cellKey (route cfg a)) v

/-- The byte this hardware's bus returns for `a` in state `s` (R46). -/
def State.byteAt (s : State) (a : Word) : Byte := busRead Config.hardware s.mem a

/-! ### The frame buffer -/

/-- `FB[y][x]` (R24). -/
def FrameBuffer.pixel (fb : FrameBuffer) (x : Fin 160) (y : Fin 144) : Color := (fb.get y).get x

/-- The frame buffer with `FB[y][x] <- c` (R24). -/
def FrameBuffer.setPixel (fb : FrameBuffer) (x : Fin 160) (y : Fin 144) (c : Color) : FrameBuffer :=
  fb.set y ((fb.get y).set x c)

/-- The frame buffer whose pixel at column `x`, row `y` is `f x y`: every pixel overwritten (R157). -/
def FrameBuffer.fill (f : Fin 160 → Fin 144 → Color) : FrameBuffer :=
  Vector.ofFn fun y => Vector.ofFn fun x => f x y

/-! ### Responses and aborts -/

/-- The code of a cause (R181). -/
def Cause.code : Cause → BitVec 3
  | .wrongWidth => 1
  | .regionRange => 2
  | .tileIndexRange => 3
  | .displayBounds => 4
  | .reservedEncoding => 5

/-- The `status` bit of a response: 0 for `OK`, 1 for `ABORT` (R84). -/
def Response.status : Response → BitVec 1
  | .ok _ => 0
  | .abort _ => 1

/-- The `cause` field of a response: 0 when the status is `OK` (R84, R181). -/
def Response.causeCode : Response → BitVec 3
  | .ok _ => 0
  | .abort c => c.code

/-- The abort output: asserted while the abort latch holds a cause (R183 (d)). -/
def State.abortOutput (s : State) : Bool := s.aborted.isSome

/-- The command has executed and the response `OK` with `data` is presented (R84). -/
def State.respond (s : State) (data : Data) : State := { s with response := some (.ok data) }

/-- Abort entry (R183), the block's one exception: the latch takes the cause, the response is `ABORT` with
the cause, and nothing else changes; no handler, vector, saved `PC` or mode exists. There is no return
(R185); the reset input is the only exit. DEDUCED: log entry 6. -/
def State.abort (s : State) (cause : Cause) : State :=
  { s with aborted := some cause, response := some (.abort cause) }

/-- The end of a command (R183): its new state with its response, or its abort from the state before it. -/
def complete (s : State) (result : Except Cause (State × Data)) : Host.Outcome State Fault Refusal :=
  match result with
  | .ok (s', data) => .next (s'.respond data)
  | .error cause => .next (s.abort cause)

/-- A check of a command's rule, before anything it reads or writes (R112, R183 (a)): its cause ends the
command, its value goes on. -/
def checked {α : Type} (check : Except Cause α) (rest : α → Except Cause (State × Data)) :
    Except Cause (State × Data) :=
  match check with
  | .ok a => rest a
  | .error cause => .error cause

/-- The reset input (R200, R201): every piece of state at its reset value; the owner's further inputs stay. -/
def State.powerOn (cfg : Config) (inputs : List PortInput) : State := { State.resetWith cfg with port := inputs }

end Sys2Proof.Machine
end

