-- ==== Sys2Proof/Machine/Flags.lean ====
section
/-! DEFINITION. The flag byte (R11, R12, R86): the place of each flag, reading one, writing one, and the mask
of every whole write. No flag is computed from a result anywhere in the block (R114). -/

namespace Sys2Proof.Machine

/-- The bit of `F` that holds a flag: `7 - code` (R86, R11). -/
def flagBit (f : Flag) : Nat := 7 - f.code.toNat

/-- `F[7 - flag]` (R104). -/
def flagOf (F : Byte) (f : Flag) : Bool := F.getLsbD (flagBit f)

/-- `F` with one flag written: `(F & ~(0x80 >> flag)) | (b << (7 - flag))` (R105). -/
def withFlag (F : Byte) (f : Flag) (b : Bool) : Byte :=
  (F &&& ~~~(0x80#8 >>> f.code.toNat)) ||| ((BitVec.ofBool b).setWidth 8 <<< flagBit f)

/-- What a whole write of `v` stores in `F`: `v & 0xF0` (R12, R101, R103). -/
def flagMask (v : Byte) : Byte := v &&& 0xF0

end Sys2Proof.Machine
end

