-- ==== Sys2Proof/Machine/Operands.lean ====
section
/-! DEFINITION. The operand forms of the register-file commands: selector and mode checks (R112, R102), and the
reads and writes of every register a selector names (R13, R14, R100 to R103). -/

namespace Sys2Proof.Machine

/-- `CheckSel(reg, want16 = false)` (R112): reserved codes first, then width. -/
def checkSel8 : Sel → Except Cause Reg8
  | .reserved14 => .error .reservedEncoding
  | .reserved15 => .error .reservedEncoding
  | .r16 _ => .error .wrongWidth
  | .r8 r => .ok r

/-- `CheckSel(reg, want16 = true)` (R112). -/
def checkSel16 : Sel → Except Cause Reg16
  | .reserved14 => .error .reservedEncoding
  | .reserved15 => .error .reservedEncoding
  | .r8 _ => .error .wrongWidth
  | .r16 r => .ok r

/-- The mode checks of `RD16`, after the selector's (R102): mode 3, then a mode without `HL`. -/
def checkMode (r : Reg16) : Mode → Except Cause Mode
  | .reserved => .error .reservedEncoding
  | .normal => .ok .normal
  | .increment => if r = .HL then .ok .increment else .error .reservedEncoding
  | .decrement => if r = .HL then .ok .decrement else .error .reservedEncoding

/-- `x[reg]`, an 8-bit register (R100). -/
def State.get8 (s : State) : Reg8 → Byte
  | .A => s.A
  | .F => s.F
  | .B => s.B
  | .C => s.C
  | .D => s.D
  | .E => s.E
  | .H => s.H
  | .L => s.L

/-- `x[reg] <- v`, an 8-bit register; a write of `F` is masked (R101). -/
def State.set8 (s : State) (r : Reg8) (v : Byte) : State :=
  match r with
  | .A => { s with A := v }
  | .F => { s with F := flagMask v }
  | .B => { s with B := v }
  | .C => { s with C := v }
  | .D => { s with D := v }
  | .E => { s with E := v }
  | .H => { s with H := v }
  | .L => { s with L := v }

/-- A pair, high register in bits 15 to 8 (R13), or `SP` or `PC` whole (R102). -/
def State.get16 (s : State) : Reg16 → Word
  | .AF => s.A ++ s.F
  | .BC => s.B ++ s.C
  | .DE => s.D ++ s.E
  | .HL => s.H ++ s.L
  | .SP => s.SP
  | .PC => s.PC

/-- `v[15:8]` of R13. -/
def highByte (v : Word) : Byte := v.extractLsb' 8 8

/-- `v[7:0]` of R13. -/
def lowByte (v : Word) : Byte := v.extractLsb' 0 8

/-- The write of a pair, `SP` or `PC`; the low byte of `AF` is masked (R103). -/
def State.set16 (s : State) (r : Reg16) (v : Word) : State :=
  match r with
  | .AF => { s with A := highByte v, F := flagMask (lowByte v) }
  | .BC => { s with B := highByte v, C := lowByte v }
  | .DE => { s with D := highByte v, E := lowByte v }
  | .HL => { s with H := highByte v, L := lowByte v }
  | .SP => { s with SP := v }
  | .PC => { s with PC := v }

/-- The step of `L` after the read of `HL` (R102, R114): modulo 256, no carry into `H`, no flag. -/
def State.stepL (s : State) : Mode → State
  | .normal => s
  | .increment => { s with L := s.L + 1 }
  | .decrement => { s with L := s.L - 1 }
  | .reserved => s

/-- The identifier of `TGET`, refused outside 0 to 255 (R134, R130: never masked). -/
def checkTileId (id : Word) : Except Cause Byte :=
  if id.toNat > 255 then .error .tileIndexRange else .ok (id.setWidth 8)

/-- The pixel of `DSET` and `DGET`: refused when `x >= 160` or `y >= 144` (R155, R156). -/
def checkPixel (x y : Byte) : Except Cause (Fin 160 × Fin 144) :=
  if h : x.toNat < 160 ∧ y.toNat < 144 then .ok (⟨x.toNat, h.1⟩, ⟨y.toNat, h.2⟩) else .error .displayBounds

end Sys2Proof.Machine
end

