-- ==== Sys2Proof/Machine/Tiles.lean ====
section
/-! DEFINITION. The pure functions of the tile/pixel pipeline and of tile addressing: DecodeLine, DecodeTile
(R150, R151), their packing (R87), TileAddr, TileBytes, TileAt (R130, R135), BgWindow, BgPixel (R158, R152),
and the interrupt lines (R110, R88). -/

namespace Sys2Proof.Machine

/-- A tile line (R25): eight colours, index 0 the leftmost. -/
abbrev TileLine := Vector Color 8

/-- A tile (R25): eight lines, index 0 the top. -/
abbrev Tile := Vector TileLine 8

/-- `DecodeLine(lo, hi)` (R150): `c[i] = { hi[7 - i], lo[7 - i] }`. -/
def decodeLine (lo hi : Byte) : TileLine :=
  Vector.ofFn fun i : Fin 8 => BitVec.ofBool (hi.getLsbD (7 - i)) ++ BitVec.ofBool (lo.getLsbD (7 - i))

/-- A line in 16 bits, the leftmost pixel in bits 15 and 14 (R87). -/
def packLine (px : TileLine) : BitVec 16 :=
  px[0] ++ px[1] ++ px[2] ++ px[3] ++ px[4] ++ px[5] ++ px[6] ++ px[7]

/-- `DecodeTile(b)` (R151): bytes `2k`, `2k + 1` give line `k`, the even byte the low plane. -/
def decodeTile (b : Vector Byte 16) : Tile :=
  Vector.ofFn fun k : Fin 8 => decodeLine b[2 * k.val] b[2 * k.val + 1]

/-- A tile in 128 bits, line `k` at bits `16k + 15` to `16k` (R87). -/
def packTile (t : Tile) : BitVec 128 :=
  packLine t[7] ++ packLine t[6] ++ packLine t[5] ++ packLine t[4] ++
    packLine t[3] ++ packLine t[2] ++ packLine t[1] ++ packLine t[0]

/-- Source byte `k` of the `TIL` payload: bits `8k + 7` to `8k` (R80). -/
def payloadBytes (payload : Payload) : Vector Byte 16 :=
  Vector.ofFn fun k : Fin 16 => payload.extractLsb' (8 * k) 8

/-- `TileAddr(id, lcdc)` (R130), for an identifier of the domain 0 to 255: the type `Byte` leaves no other
(log entry 15); `TGET` refuses the rest before it comes here. -/
def tileAddr (cfg : Config) (id : Byte) (lcdc : Byte) : Word :=
  if id.toNat ≥ 128 then BitVec.ofNat 16 (0x8800 + (id.toNat - 128) * cfg.tileStride)
  else if lcdc.getLsbD cfg.lcdcTileDataBit then BitVec.ofNat 16 (0x8000 + id.toNat * cfg.tileStride)
  else BitVec.ofNat 16 (cfg.lowIdBaseWhenClear.toNat + id.toNat * cfg.tileStride)

/-- `TileBytes(id, lcdc)` (R135): the sixteen bytes from `TileAddr(id, lcdc)` on. -/
def tileBytes (cfg : Config) (m : List Host.Cell) (id lcdc : Byte) : Vector Byte 16 :=
  Vector.ofFn fun k : Fin 16 => busRead cfg m (tileAddr cfg id lcdc + BitVec.ofNat 16 k)

/-- `TileAt(id, lcdc)` (R135). -/
def tileAt (cfg : Config) (m : List Host.Cell) (id lcdc : Byte) : Tile := decodeTile (tileBytes cfg m id lcdc)

/-- A tile is blank when all sixteen of its bytes are 0x00 (R135). -/
def blankTile (b : Vector Byte 16) : Bool := b.toList.all (· == 0)

/-- The tiles `LDT` lists (R133): identifiers 0 to 255 ascending, the blank ones left out. -/
def loadTiles (cfg : Config) (m : List Host.Cell) : List Tile :=
  let lcdc := busRead cfg m cfg.addrLCDC
  (List.range 256).filterMap fun id =>
    let b := tileBytes cfg m (BitVec.ofNat 8 id) lcdc
    if blankTile b then none else some (decodeTile b)

/-- `BgWindow(scx, scy)` (R158): the bottom and right edge of the visible window, modulo 256. -/
def bgWindow (scx scy : Byte) : Byte × Byte := (scy + 143, scx + 159)

/-- `BgPixel(x, y)` (R152): the background's colour at screen column `x`, row `y`, from the bus as it stands. -/
def bgPixel (cfg : Config) (m : List Host.Cell) (x y : Byte) : Color :=
  let lcdc := busRead cfg m cfg.addrLCDC
  let bx := busRead cfg m cfg.addrSCX + x
  let byy := busRead cfg m cfg.addrSCY + y
  let mapBase : Nat := if lcdc.getLsbD cfg.lcdcBgMapBit then 0x9C00 else 0x9800
  let id := busRead cfg m (BitVec.ofNat 16 (mapBase + 32 * (byy.toNat / 8) + bx.toNat / 8))
  let a := tileAddr cfg id lcdc + BitVec.ofNat 16 (2 * (byy.toNat % 8))
  let lo := busRead cfg m a
  let hi := busRead cfg m (a + 1)
  (decodeLine lo hi)[bx.toNat % 8]

/-- The five interrupt lines of a byte (R110, R186). -/
structure InterruptLines where
  joypad : Bool
  serial : Bool
  timer : Bool
  lcd : Bool
  vblank : Bool
  deriving DecidableEq, Repr

/-- The classification of a byte: bit 0 vblank to bit 4 joypad, bits 7 to 5 ignored (R110). -/
def classify (v : Byte) : InterruptLines where
  joypad := v.getLsbD 4
  serial := v.getLsbD 3
  timer := v.getLsbD 2
  lcd := v.getLsbD 1
  vblank := v.getLsbD 0

/-- The lines packed as `{joypad, serial, timer, lcd, vblank}` (R88). -/
def InterruptLines.pack (l : InterruptLines) : BitVec 5 :=
  BitVec.ofBool l.joypad ++ BitVec.ofBool l.serial ++ BitVec.ofBool l.timer ++ BitVec.ofBool l.lcd ++
    BitVec.ofBool l.vblank

end Sys2Proof.Machine
end

