-- ==== Sys2Proof/Machine/MemoryBus.lean ====
section
/-! DEFINITION. The four commands of the Memory Bus family (41_memory_bus.md), one meaning each. -/

namespace Sys2Proof.Machine

/-- `BRD a` of the block with configuration `cfg` (R131). -/
def execBrdWith (cfg : Config) (addr : Word) (s : State) : Host.Outcome State Fault Refusal :=
  complete s (.ok (s, .byte (busRead cfg s.mem addr)))

/-- `BRD a` (R131). -/
def execBrd (addr : Word) (s : State) : Host.Outcome State Fault Refusal := execBrdWith Config.hardware addr s

/-- `BWR a, v` of the block with configuration `cfg` (R132). -/
def execBwrWith (cfg : Config) (addr : Word) (data : Byte) (s : State) : Host.Outcome State Fault Refusal :=
  complete s (.ok ({ s with mem := busWrite cfg s.mem addr data }, .none))

/-- `BWR a, v` (R132). -/
def execBwr (addr : Word) (data : Byte) (s : State) : Host.Outcome State Fault Refusal :=
  execBwrWith Config.hardware addr data s

/-- The response of `LDT` (R133, R89): the count and the packed tiles. -/
def tileList (cfg : Config) (m : List Host.Cell) : Data :=
  let tiles := loadTiles cfg m
  .tiles (BitVec.ofNat 9 tiles.length) (tiles.map packTile)

/-- `LDT` of the block with configuration `cfg` (R133). -/
def execLdtWith (cfg : Config) (s : State) : Host.Outcome State Fault Refusal :=
  complete s (.ok (s, tileList cfg s.mem))

/-- `LDT` (R133). -/
def execLdt (s : State) : Host.Outcome State Fault Refusal := execLdtWith Config.hardware s

/-- `TGET id` of the block with configuration `cfg` (R134). -/
def execTgetWith (cfg : Config) (id : Word) (s : State) : Host.Outcome State Fault Refusal :=
  complete s (checked (checkTileId id) fun tile =>
    .ok (s, .tile (packTile (tileAt cfg s.mem tile (busRead cfg s.mem cfg.addrLCDC)))))

/-- `TGET id` (R134). -/
def execTget (id : Word) (s : State) : Host.Outcome State Fault Refusal := execTgetWith Config.hardware id s

end Sys2Proof.Machine
end

