-- ==== Sys2Proof/Machine/RegisterFile.lean ====
section
/-! DEFINITION. The twelve commands of the Register File family (40_register_file.md), one meaning each. -/

namespace Sys2Proof.Machine

/-- `RD8 r` (R100). -/
def execRd8 (reg : Sel) (s : State) : Host.Outcome State Fault Refusal :=
  complete s (checked (checkSel8 reg) fun r => .ok (s, .byte (s.get8 r)))

/-- `WR8 r, v` (R101). -/
def execWr8 (reg : Sel) (v : Byte) (s : State) : Host.Outcome State Fault Refusal :=
  complete s (checked (checkSel8 reg) fun r => .ok (s.set8 r v, .none))

/-- `RD16 rr`, `RD16 HL+`, `RD16 HL-` (R102): the value returned is the one before the step of `L`. -/
def execRd16 (reg : Sel) (mode : Mode) (s : State) : Host.Outcome State Fault Refusal :=
  complete s (checked (checkSel16 reg) fun r =>
    checked (checkMode r mode) fun m => .ok (s.stepL m, .word (s.get16 r)))

/-- `WR16 rr, v` (R103); `WR16 PC` transfers no control (R113). -/
def execWr16 (reg : Sel) (v : Word) (s : State) : Host.Outcome State Fault Refusal :=
  complete s (checked (checkSel16 reg) fun r => .ok (s.set16 r v, .none))

/-- `FGET f` (R104). -/
def execFget (flag : Flag) (s : State) : Host.Outcome State Fault Refusal :=
  complete s (.ok (s, .bit (flagOf s.F flag)))

/-- `FSET f, b` (R105). -/
def execFset (flag : Flag) (b : Bool) (s : State) : Host.Outcome State Fault Refusal :=
  complete s (.ok ({ s with F := withFlag s.F flag b }, .none))

/-- `IMEGET` (R106). -/
def execImeget (s : State) : Host.Outcome State Fault Refusal :=
  complete s (.ok (s, .bit s.IME))

/-- `IMESET b` (R107): at once, `HW` untouched. -/
def execImeset (b : Bool) (s : State) : Host.Outcome State Fault Refusal :=
  complete s (.ok ({ s with IME := b }, .none))

/-- `HWGET` (R108). -/
def execHwget (s : State) : Host.Outcome State Fault Refusal :=
  complete s (.ok (s, .bit s.HW))

/-- `HWSET b` (R109): `IME` untouched. -/
def execHwset (b : Bool) (s : State) : Host.Outcome State Fault Refusal :=
  complete s (.ok ({ s with HW := b }, .none))

/-- `ICLS v` (R110). -/
def execIcls (v : Byte) (s : State) : Host.Outcome State Fault Refusal :=
  complete s (.ok (s, .lines (classify v).pack))

/-- The ten lines of `INTQ` (R111, R88): `{requested, enabled}`, neither combined with the other. -/
def interruptQuery (cfg : Config) (m : List Host.Cell) : BitVec 10 :=
  (classify (busRead cfg m cfg.addrIF)).pack ++ (classify (busRead cfg m cfg.addrIE)).pack

/-- `INTQ` of the block with configuration `cfg` (R111). -/
def execIntqWith (cfg : Config) (s : State) : Host.Outcome State Fault Refusal :=
  complete s (.ok (s, .linePair (interruptQuery cfg s.mem)))

/-- `INTQ` (R111). -/
def execIntq (s : State) : Host.Outcome State Fault Refusal := execIntqWith Config.hardware s

end Sys2Proof.Machine
end

