-- ==== Sys2Proof/Machine/TilePixel.lean ====
section
/-! DEFINITION. The six commands of the Tile/Pixel family (42_tile_pixel.md), one meaning each. -/

namespace Sys2Proof.Machine

/-- `TLN lo, hi` (R153). -/
def execTln (lo hi : Byte) (s : State) : Host.Outcome State Fault Refusal :=
  complete s (.ok (s, .tileLine (packLine (decodeLine lo hi))))

/-- `TIL b0 .. b15` (R154). -/
def execTil (payload : Payload) (s : State) : Host.Outcome State Fault Refusal :=
  complete s (.ok (s, .tile (packTile (decodeTile (payloadBytes payload)))))

/-- `DSET c, x, y` (R155). -/
def execDset (color : Color) (x y : Byte) (s : State) : Host.Outcome State Fault Refusal :=
  complete s (checked (checkPixel x y) fun p =>
    .ok ({ s with fb := FrameBuffer.setPixel s.fb p.1 p.2 color }, .none))

/-- `DGET x, y` (R156). -/
def execDget (x y : Byte) (s : State) : Host.Outcome State Fault Refusal :=
  complete s (checked (checkPixel x y) fun p => .ok (s, .color (FrameBuffer.pixel s.fb p.1 p.2)))

/-- The frame `DUPD` builds (R157): `C0` everywhere in the non-default case that `cfg.BG_ENABLE_GATES_UPDATE`
is set and the enable bit clear, else every pixel from `BgPixel`. -/
def frameOf (cfg : Config) (m : List Host.Cell) : FrameBuffer :=
  if cfg.bgEnableGatesUpdate && !(busRead cfg m cfg.addrLCDC).getLsbD cfg.lcdcBgEnableBit then
    FrameBuffer.fill fun _ _ => 0
  else FrameBuffer.fill fun x y => bgPixel cfg m (BitVec.ofNat 8 x) (BitVec.ofNat 8 y)

/-- `DUPD` of the block with configuration `cfg` (R157): one atomic step over one snapshot of the bus. -/
def execDupdWith (cfg : Config) (s : State) : Host.Outcome State Fault Refusal :=
  complete s (.ok ({ s with fb := frameOf cfg s.mem }, .none))

/-- `DUPD` (R157). -/
def execDupd (s : State) : Host.Outcome State Fault Refusal := execDupdWith Config.hardware s

/-- The response of `BGW` (R159): `{enabled, scroll_y, scroll_x, bottom, right}` (R84). -/
def windowOf (cfg : Config) (m : List Host.Cell) : BitVec 33 :=
  let scx := busRead cfg m cfg.addrSCX
  let scy := busRead cfg m cfg.addrSCY
  let edges := bgWindow scx scy
  BitVec.ofBool ((busRead cfg m cfg.addrLCDC).getLsbD cfg.lcdcBgEnableBit) ++ scy ++ scx ++ edges.1 ++ edges.2

/-- `BGW` of the block with configuration `cfg` (R159). -/
def execBgwWith (cfg : Config) (s : State) : Host.Outcome State Fault Refusal :=
  complete s (.ok (s, .window (windowOf cfg s.mem)))

/-- `BGW` (R159). -/
def execBgw (s : State) : Host.Outcome State Fault Refusal := execBgwWith Config.hardware s

end Sys2Proof.Machine
end

