-- ==== Sys2Proof/Machine/Dispatch.lean ====
section
/-! DEFINITION. One arm per command (R72): the meaning of a command that the block has accepted. -/

namespace Sys2Proof.Machine

def exec (i : Instr) (s : State) : Host.Outcome State Fault Refusal :=
  match i with
  | .rd8 reg => Sys2Proof.Machine.execRd8 reg s
  | .wr8 reg v => Sys2Proof.Machine.execWr8 reg v s
  | .rd16 reg mode => Sys2Proof.Machine.execRd16 reg mode s
  | .wr16 reg v => Sys2Proof.Machine.execWr16 reg v s
  | .fget flag => Sys2Proof.Machine.execFget flag s
  | .fset flag b => Sys2Proof.Machine.execFset flag b s
  | .imeget => Sys2Proof.Machine.execImeget s
  | .imeset b => Sys2Proof.Machine.execImeset b s
  | .hwget => Sys2Proof.Machine.execHwget s
  | .hwset b => Sys2Proof.Machine.execHwset b s
  | .icls v => Sys2Proof.Machine.execIcls v s
  | .intq => Sys2Proof.Machine.execIntq s
  | .brd addr => Sys2Proof.Machine.execBrd addr s
  | .bwr addr data => Sys2Proof.Machine.execBwr addr data s
  | .ldt => Sys2Proof.Machine.execLdt s
  | .tget id => Sys2Proof.Machine.execTget id s
  | .tln lo hi => Sys2Proof.Machine.execTln lo hi s
  | .til payload => Sys2Proof.Machine.execTil payload s
  | .dset color x y => Sys2Proof.Machine.execDset color x y s
  | .dget x y => Sys2Proof.Machine.execDget x y s
  | .dupd => Sys2Proof.Machine.execDupd s
  | .bgw => Sys2Proof.Machine.execBgw s

end Sys2Proof.Machine
end

