-- ==== Sys2Proof/Machine/Port.lean ====
section
/-! DEFINITION. The command port (R70): what the block does with the input now presented, up to the meaning of
a command. -/

namespace Sys2Proof.Machine

/-- What comes of the input presented at the port. -/
inductive Accepted where
  /-- A command, to be executed in the state in which it no longer stands at the port. -/
  | run (i : Instr) (s : State)
  /-- The input has had its whole effect. -/
  | done (s : State)
  /-- The block stands still. -/
  | stuck (r : Fault)
  deriving Repr

/-- One input taken from the port of the block with configuration `cfg`. The reset input acts in every state and
leaves the reset values of that configuration (R200, R201). While the abort latch
holds a cause nothing else is accepted (R184; I17: stuck; log entry 4). With nothing presented nothing
happens (log entry 3). A word that is `Invalid` aborts with `ReservedEncoding` (R90, R182 (1)). -/
def accept (cfg : Config) (s : State) : Accepted :=
  match s.port with
  | .reset :: rest => .done (State.powerOn cfg rest)
  | [] =>
    match s.aborted with
    | some cause => .stuck (.blockDead cause)
    | none => .done s
  | .command w payload :: rest =>
    match s.aborted with
    | some cause => .stuck (.blockDead cause)
    | none =>
      match decode w payload with
      | .ok i => .run i { s with port := rest }
      | .error _ => .done (State.abort { s with port := rest } .reservedEncoding)

/-- What a step answers, from what comes of its input and the meaning of the commands. -/
def finish (meaning : Instr → State → Host.Outcome State Fault Refusal) :
    Accepted → Host.Outcome State Fault Refusal
  | .run i s => meaning i s
  | .done s => .next s
  | .stuck r => .fault r

/-- The state with the instruction whose bits are `w` presented next: its command word and payload put before
the owner's further inputs. Log entry 1. -/
def State.present (s : State) (w : CmdWord) (payload : Payload) : State :=
  { s with port := .command w payload :: s.port }

end Sys2Proof.Machine
end

