-- ==== Sys2Proof/Machine/Step.lean ====
section
/-! DEFINITION. One step: one input of the owner, from the port to its whole effect (R5, R70). -/

namespace Sys2Proof.Machine

/-- One atomic step of the block (R5): the input now presented is accepted, and a command is executed. -/
def step (s : State) : Host.Outcome State Fault Refusal :=
  finish exec (accept Config.hardware s)

/-- `s` with the instruction whose bits are `w` presented at the command port, where `step` takes its next one. -/
def State.withFetchWord (s : State) (nbits w : Nat) : State :=
  s.present (wordOfBits nbits w) (payloadOfBits nbits w)

end Sys2Proof.Machine
end

