-- ==== Sys2Proof/Machine/Configured.lean ====
section
/-! DEFINITION. The block under any configuration (R2, 00_scope.md): the commands and the step with the record of
parameters as an argument, as section 5 of 00_scope.md writes them (`step : Config -> State -> Command ->
Outcome`). `exec`, `step` and `State.reset` are these, and `State.resetWith`, at `Config.hardware`. -/

namespace Sys2Proof.Machine

/-- The meaning of a command of the block with configuration `cfg`. The commands that read no parameter have the
one meaning they have everywhere. -/
def execWith (cfg : Config) (i : Instr) (s : State) : Host.Outcome State Fault Refusal :=
  match i with
  | .rd8 reg => execRd8 reg s
  | .wr8 reg v => execWr8 reg v s
  | .rd16 reg mode => execRd16 reg mode s
  | .wr16 reg v => execWr16 reg v s
  | .fget flag => execFget flag s
  | .fset flag b => execFset flag b s
  | .imeget => execImeget s
  | .imeset b => execImeset b s
  | .hwget => execHwget s
  | .hwset b => execHwset b s
  | .icls v => execIcls v s
  | .intq => execIntqWith cfg s
  | .brd addr => execBrdWith cfg addr s
  | .bwr addr data => execBwrWith cfg addr data s
  | .ldt => execLdtWith cfg s
  | .tget id => execTgetWith cfg id s
  | .tln lo hi => execTln lo hi s
  | .til payload => execTil payload s
  | .dset color x y => execDset color x y s
  | .dget x y => execDget x y s
  | .dupd => execDupdWith cfg s
  | .bgw => execBgwWith cfg s

/-- One atomic step (R5) of the block with configuration `cfg`. -/
def stepWith (cfg : Config) (s : State) : Host.Outcome State Fault Refusal :=
  finish (execWith cfg) (accept cfg s)

end Sys2Proof.Machine
end

