-- ==== Sys2Proof/Machine/MemoryMap.lean ====
section
/-! DEFINITION. The names inside two regions (R21, R43 to R45): the five parts of video RAM and the named cells
of the I/O window. They change nothing a read or a write observes (R43, R44): every named cell is a plain
cell of the bus. -/

namespace Sys2Proof.Machine

/-- The five parts of video RAM (R21, R43). -/
inductive VramPart where
  | tileBlock0 | tileBlock1 | tileBlock2 | tileMap0 | tileMap1
  deriving DecidableEq, Repr

/-- The first address of a part of video RAM (R43). -/
def VramPart.first : VramPart → Nat
  | .tileBlock0 => 0x8000
  | .tileBlock1 => 0x8800
  | .tileBlock2 => 0x9000
  | .tileMap0 => 0x9800
  | .tileMap1 => 0x9C00

/-- The last address of a part of video RAM (R43). -/
def VramPart.last : VramPart → Nat
  | .tileBlock0 => 0x87FF
  | .tileBlock1 => 0x8FFF
  | .tileBlock2 => 0x97FF
  | .tileMap0 => 0x9BFF
  | .tileMap1 => 0x9FFF

/-- The part of video RAM an address falls in, if it is a video-RAM address (R43). -/
def vramPart (a : Word) : Option VramPart :=
  if a.toNat < 0x8000 then none
  else if a.toNat ≤ 0x87FF then some .tileBlock0
  else if a.toNat ≤ 0x8FFF then some .tileBlock1
  else if a.toNat ≤ 0x97FF then some .tileBlock2
  else if a.toNat ≤ 0x9BFF then some .tileMap0
  else if a.toNat ≤ 0x9FFF then some .tileMap1
  else none

/-- The named cells of R45. -/
inductive NamedCell where
  | joyp | sb | sc | div | tima | tma | tac | interruptFlag | audio (index : Nat) | wave (index : Nat)
  | lcdc | scy | scx | dma | interruptEnable
  deriving DecidableEq, Repr

/-- The name of a cell (R45). PRESUMED, from general knowledge by the spec's own mark, but for 0xFF0F and
0xFFFF; no command depends on it. Log entry 7. -/
def namedCell (a : Word) : Option NamedCell :=
  let n := a.toNat
  if n = 0xFF00 then some .joyp
  else if n = 0xFF01 then some .sb
  else if n = 0xFF02 then some .sc
  else if n = 0xFF04 then some .div
  else if n = 0xFF05 then some .tima
  else if n = 0xFF06 then some .tma
  else if n = 0xFF07 then some .tac
  else if n = 0xFF0F then some .interruptFlag
  else if 0xFF10 ≤ n ∧ n ≤ 0xFF14 then some (.audio (n - 0xFF10))
  else if 0xFF16 ≤ n ∧ n ≤ 0xFF1E then some (.audio (n - 0xFF16 + 5))
  else if 0xFF20 ≤ n ∧ n ≤ 0xFF26 then some (.audio (n - 0xFF20 + 14))
  else if 0xFF30 ≤ n ∧ n ≤ 0xFF3F then some (.wave (n - 0xFF30))
  else if n = 0xFF40 then some .lcdc
  else if n = 0xFF42 then some .scy
  else if n = 0xFF43 then some .scx
  else if n = 0xFF46 then some .dma
  else if n = 0xFFFF then some .interruptEnable
  else none

end Sys2Proof.Machine
end

