-- ==== Sys2Proof/WellFormed.lean ====
section
/-! DEFINITION. Which commands keep the programming contract by their operands alone (R91, R112, R130, R155).
Every term of `Instr` has an encoding; a term that is not well formed is a command that the block accepts,
decodes and answers with an abort. -/

namespace Sys2Proof

/-- The selector is 8-bit-only (R112, R83). -/
def Sel.is8 : Sel → Bool
  | .r8 _ => true
  | _ => false

/-- The selector is 16-bit-only (R112, R83). -/
def Sel.is16 : Sel → Bool
  | .r16 _ => true
  | _ => false

/-- The mode may stand with the selector: Normal with any, Increment and Decrement with `HL` only (R91, R102). -/
def Mode.fits : Mode → Sel → Bool
  | .normal, _ => true
  | .increment, reg => reg == .r16 .HL
  | .decrement, reg => reg == .r16 .HL
  | .reserved, _ => false

/-- A tile identifier of the domain 0 to 255 (R134). -/
def tileIdInDomain (id : Word) : Bool := id.toNat ≤ 255

/-- A pixel of the 160 by 144 frame buffer (R155). -/
def onDisplay (x y : Byte) : Bool := x.toNat < 160 && y.toNat < 144

/-- The command keeps the programming contract of its own rule. -/
def Instr.wf : Instr → Bool
  | .rd8 reg => reg.is8
  | .wr8 reg _ => reg.is8
  | .rd16 reg mode => reg.is16 && mode.fits reg
  | .wr16 reg _ => reg.is16
  | .fget _ => true
  | .fset _ _ => true
  | .imeget => true
  | .imeset _ => true
  | .hwget => true
  | .hwset _ => true
  | .icls _ => true
  | .intq => true
  | .brd _ => true
  | .bwr _ _ => true
  | .ldt => true
  | .tget id => tileIdInDomain id
  | .tln _ _ => true
  | .til _ => true
  | .dset _ x y => onDisplay x y
  | .dget x y => onDisplay x y
  | .dupd => true
  | .bgw => true

end Sys2Proof
end

