-- ==== Sys2Proof/Safety.lean ====
section
/-! DEFINITION. What counts as a sound state and a safe outcome, and the families of commands claims speak of. -/

namespace Sys2Proof.Machine

/-- `F[3:0] = 0` (R12). -/
def State.flagsMasked (s : State) : Prop := s.F &&& 0x0F = 0

/-- The abort latch and the response port agree: the latch holds a cause exactly while the last response is
the abort with that cause (R183, R184). -/
def State.abortShown (s : State) : Prop := ∀ c, s.aborted = some c ↔ s.response = some (.abort c)

/-- What holds of every reachable state of the block with configuration `cfg`. -/
structure State.Inv (cfg : Config) (s : State) : Prop where
  flags : s.flagsMasked
  cells : Memory.wf cfg s.mem = true
  shown : s.abortShown
  /-- `Abort(RegionRange)` is unreachable (R54). -/
  region : s.aborted ≠ some .regionRange

/-- A step is safe when it answers a state in which the block is not aborted. -/
def Safe (o : Host.Outcome State Fault Refusal) : Prop := ∃ t, o = .next t ∧ t.aborted = none

/-- `s` with the whole Register File (R10) taken from `r`. -/
def State.withRegisterFile (s r : State) : State :=
  { s with A := r.A, F := r.F, B := r.B, C := r.C, D := r.D, E := r.E, H := r.H, L := r.L,
           SP := r.SP, PC := r.PC, IME := r.IME, HW := r.HW }

/-- The commands of the Register File family (R72, 40_register_file.md). -/
def inRegisterFileFamily : Instr → Bool
  | .rd8 _ => true
  | .wr8 _ _ => true
  | .rd16 _ _ => true
  | .wr16 _ _ => true
  | .fget _ => true
  | .fset _ _ => true
  | .imeget => true
  | .imeset _ => true
  | .hwget => true
  | .hwset _ => true
  | .icls _ => true
  | .intq => true
  | .brd _ => false
  | .bwr _ _ => false
  | .ldt => false
  | .tget _ => false
  | .tln _ _ => false
  | .til _ => false
  | .dset _ _ _ => false
  | .dget _ _ => false
  | .dupd => false
  | .bgw => false

/-- The commands whose meaning names a parameter of R2, by themselves or through the bus (R49, R111, R130, R152,
R157, R159). -/
def readsConfiguration : Instr → Bool
  | .rd8 _ => false
  | .wr8 _ _ => false
  | .rd16 _ _ => false
  | .wr16 _ _ => false
  | .fget _ => false
  | .fset _ _ => false
  | .imeget => false
  | .imeset _ => false
  | .hwget => false
  | .hwset _ => false
  | .icls _ => false
  | .intq => true
  | .brd _ => true
  | .bwr _ _ => true
  | .ldt => true
  | .tget _ => true
  | .tln _ _ => false
  | .til _ => false
  | .dset _ _ _ => false
  | .dget _ _ => false
  | .dupd => true
  | .bgw => true

/-- The reads that R210 lists as changing nothing (`RD16` in Normal mode among them). -/
def isPlainRead : Instr → Bool
  | .rd8 _ => true
  | .wr8 _ _ => false
  | .rd16 _ mode => mode == .normal
  | .wr16 _ _ => false
  | .fget _ => true
  | .fset _ _ => false
  | .imeget => true
  | .imeset _ => false
  | .hwget => true
  | .hwset _ => false
  | .icls _ => true
  | .intq => true
  | .brd _ => true
  | .bwr _ _ => false
  | .ldt => true
  | .tget _ => true
  | .tln _ _ => true
  | .til _ => true
  | .dset _ _ _ => false
  | .dget _ _ => true
  | .dupd => false
  | .bgw => true

end Sys2Proof.Machine
end

