-- ==== Sys2Proof/Certificates/Slice0/Obligations.lean ====
section
/-! DEFINITION. What the provers are asked to prove, from the numbered rules of spec/. A next state is written
out field by field, `{ s with … }`: every field not named there is unchanged, which is the command's frame. -/

open Sys2Proof Sys2Proof.Machine

/-! ### Encoding -/

/-- Words of 95_test_vectors.md decode as listed there (R72 to R82, R90): one or more of every family, and
words that are `Invalid`. -/
def Obligations.ListedWordsDecode : Prop :=
  decode 0x10100000 0 = .ok (.rd8 (.r8 .F)) ∧
  decode 0x12B40000 0 = .ok (.rd16 (.r16 .HL) .increment) ∧
  decode 0x138012FF 0 = .ok (.wr16 (.r16 .AF) 0x12FF) ∧
  decode 0x15400001 0 = .ok (.fset .N true) ∧
  decode 0x1A000015 0 = .ok (.icls 0x15) ∧
  decode 0x21E00055 0 = .ok (.bwr 0xE000 0x55) ∧
  decode 0x23000100 0 = .ok (.tget 256) ∧
  decode 0x30B0C000 0 = .ok (.tln 0xB0 0xC0) ∧
  decode 0x31000000 0x7C38567C0A7E5E7E4242424242427E3C = .ok (.til 0x7C38567C0A7E5E7E4242424242427E3C) ∧
  decode 0x32039F8F 0 = .ok (.dset 3 159 143) ∧
  decode 0x13B40000 0 = .error .mustBeZero ∧
  decode 0x00000000 0 = .error .reservedOp

/-- The selector, mode and flag codes are those of the tables of R83, R85 and R86. -/
def Obligations.OperandCodesFollowTheTables : Prop :=
  (List.range 16).map (fun c => Sel.ofCode (BitVec.ofNat 4 c)) =
    [.r8 .A, .r8 .F, .r8 .B, .r8 .C, .r8 .D, .r8 .E, .r8 .H, .r8 .L,
     .r16 .AF, .r16 .BC, .r16 .DE, .r16 .HL, .r16 .SP, .r16 .PC, .reserved14, .reserved15] ∧
  (List.range 4).map (fun c => Mode.ofCode (BitVec.ofNat 2 c)) = [.normal, .increment, .decrement, .reserved] ∧
  (List.range 4).map (fun c => Flag.ofCode (BitVec.ofNat 2 c)) = [.Z, .N, .H, .C] ∧
  (∀ c, (Sel.ofCode c).code = c) ∧ (∀ c, (Mode.ofCode c).code = c) ∧ (∀ c, (Flag.ofCode c).code = c) ∧
  ∀ f, flagBit f = 7 - f.code.toNat

/-- Decoding the encoded word of any command gives the command back, every operand at every value (formats
R73 to R82); the payload beside it matters to `TIL` alone. -/
def Obligations.DecodeOfEncodeGivesTheCommand : Prop :=
  ∀ (i : Instr) (p : Payload), (∀ q, i = .til q → q = p) → decode (encode i) p = .ok i

/-- Each command word has one meaning: encoding what was decoded gives the word back, so no bit is dropped. -/
def Obligations.EncodeOfDecodeGivesTheWord : Prop :=
  ∀ (w : CmdWord) (p : Payload) (i : Instr), decode w p = .ok i →
    encode i = w ∧ ∀ q, i = .til q → q = p

/-- R90: a word is a command exactly when it matches a row of the opcode table, then of exactly one row, the
row of the command's mnemonic; every other word aborts with `ReservedEncoding` and changes no other state. -/
def Obligations.InvalidWordsAreThoseOfNoRow : Prop :=
  (∀ (w : CmdWord) (p : Payload) (i : Instr), decode w p = .ok i →
    ∃ row ∈ opcodeTable, row.mnemonic = i.mnemonic ∧ w &&& row.mask = row.pattern) ∧
  (∀ (w : CmdWord) (p : Payload), ∀ row ∈ opcodeTable, w &&& row.mask = row.pattern →
    ∃ i, decode w p = .ok i ∧ i.mnemonic = row.mnemonic) ∧
  (∀ w : CmdWord, ∀ row ∈ opcodeTable, ∀ row' ∈ opcodeTable,
    w &&& row.mask = row.pattern → w &&& row'.mask = row'.pattern → row = row') ∧
  (∀ (s : State) (w : CmdWord) (p : Payload) (rest : List PortInput), s.aborted = none →
    s.port = .command w p :: rest → (∀ row ∈ opcodeTable, w &&& row.mask ≠ row.pattern) →
    step s = .next { s with port := rest, aborted := some .reservedEncoding,
                            response := some (.abort .reservedEncoding) })

/-- Only `TIL` reads the payload (R70): two payloads beside one word decode alike unless the word is `TIL`. -/
def Obligations.PayloadReadByTilAlone : Prop :=
  ∀ (w : CmdWord) (p q : Payload), (∀ a, decode w p ≠ .ok (.til a)) → decode w q = decode w p

/-! ### The port, the reset input and the dead block -/

/-- A command word presented to a live block: the step runs the decoded command in the state in which it no
longer stands at the port. -/
def Obligations.StepRunsTheDecodedCommand : Prop :=
  ∀ (s : State) (w : CmdWord) (p : Payload) (rest : List PortInput) (i : Instr), s.aborted = none →
    s.port = .command w p :: rest → decode w p = .ok i → step s = exec i { s with port := rest }

/-- A word placed by `withFetchWord` is the very next command the step runs. -/
def Obligations.PlacedWordRunsNext : Prop :=
  ∀ (s : State) (nbits w : Nat) (i : Instr), s.aborted = none → decodeTableWord nbits w = some i →
    step (s.withFetchWord nbits w) = exec i s

/-- The model's choice, log entry 3: with nothing presented, a live block's step changes nothing. -/
def Obligations.NothingPresentedNothingHappens : Prop :=
  ∀ s : State, s.aborted = none → s.port = [] → step s = .next s

/-- R184: while the abort latch holds a cause no command executes (the step stops, log entry 4), and the reset
input, which loses all state, is the one exit. -/
def Obligations.AbortedBlockIsDeadUntilReset : Prop :=
  ∀ (s : State) (c : Cause), s.aborted = some c →
    ((∀ rest, s.port ≠ .reset :: rest) → step s = .fault (.blockDead c)) ∧
    (∀ rest, s.port = .reset :: rest → step s = .next { State.reset with port := rest })

/-- R201: every next state of an aborted block comes of the reset input, and it is the reset state with the
owner's further inputs: nothing of the run before is in it. -/
def Obligations.ResetIsTheOnlyExitAndIsTotal : Prop :=
  (∀ (s t : State) (c : Cause), s.aborted = some c → step s = .next t →
    ∃ rest, s.port = .reset :: rest ∧ t = { State.reset with port := rest }) ∧
  (∀ (s : State) (rest : List PortInput), s.port = .reset :: rest →
    step s = .next { State.reset with port := rest })

/-- R30, R33: after reset every Register File field is zero, all four flags are 0, all pairs read 0x0000, and no
abort is recorded. -/
def Obligations.ResetLeavesTheRegisterFileZero : Prop :=
  (State.reset.A = 0 ∧ State.reset.F = 0 ∧ State.reset.B = 0 ∧ State.reset.C = 0 ∧ State.reset.D = 0 ∧
    State.reset.E = 0 ∧ State.reset.H = 0 ∧ State.reset.L = 0 ∧ State.reset.SP = 0 ∧ State.reset.PC = 0 ∧
    State.reset.IME = false ∧ State.reset.HW = false) ∧
  (∀ f, flagOf State.reset.F f = false) ∧ (∀ r, State.reset.get16 r = 0) ∧ State.reset.aborted = none

/-- The spec's own choice where its source is silent (R31 with D20, R32 with D21; log entries 8 and 9): after
reset every bus cell reads `cfg.MEM_RESET` and every pixel is `cfg.FB_RESET`, under every configuration, and the
reset input leaves that state; this hardware's reset state is the one of the defaults, 0x00 and `C0`. -/
def Obligations.ResetLeavesMemoryAndFrameBufferAtTheConfiguredValues : Prop :=
  (∀ (cfg : Config) (a : Word), busRead cfg (State.resetWith cfg).mem a = cfg.memReset) ∧
  (∀ (cfg : Config) (x : Fin 160) (y : Fin 144), FrameBuffer.pixel (State.resetWith cfg).fb x y = cfg.fbReset) ∧
  (∀ (cfg : Config) (s : State) (rest : List PortInput), s.port = .reset :: rest →
    stepWith cfg s = .next { State.resetWith cfg with port := rest }) ∧
  State.reset = State.resetWith Config.hardware ∧
  (∀ a, State.reset.byteAt a = 0x00) ∧ (∀ x y, FrameBuffer.pixel State.reset.fb x y = 0)

/-- The configuration is the defaults of R2 (log entry 7: several are PRESUMED by the spec's own mark). -/
def Obligations.ConfigurationIsTheDefaults : Prop :=
  Config.hardware = { addrIE := 0xFFFF, addrIF := 0xFF0F, addrLCDC := 0xFF40, addrSCY := 0xFF42, addrSCX := 0xFF43,
                      lcdcTileDataBit := 4, lcdcBgMapBit := 3, lcdcBgEnableBit := 0, tileStride := 16,
                      lowIdBaseWhenClear := 0x8800, echoMirror := false, memReset := 0x00, fbReset := 0,
                      bgEnableGatesUpdate := false }

/-- R2: every command, the step and the reset state of this hardware are those of the block with a configuration
record, at the defaults; and the commands that name no parameter are the same under any two records. -/
def Obligations.ThisHardwareIsTheBlockAtTheDefaults : Prop :=
  (∀ (i : Instr) (s : State), exec i s = execWith Config.hardware i s) ∧
  (∀ s : State, step s = stepWith Config.hardware s) ∧ State.reset = State.resetWith Config.hardware ∧
  (∀ (cfg cfg' : Config) (i : Instr) (s : State), readsConfiguration i = false →
    execWith cfg i s = execWith cfg' i s)

/-! ### Whole-machine rules -/

/-- R217, R183: every command terminates, in every state: a next state in which it has given a response and
left the owner's further inputs alone. No command faults and none is refused. -/
def Obligations.EveryCommandTerminatesWithAResponse : Prop :=
  ∀ (i : Instr) (s : State), ∃ t r, exec i s = .next t ∧ t.response = some r ∧ t.port = s.port

/-- Every command whose operands keep its contract completes with an `OK` response and no abort; every other
aborts, changing nothing but the latch and the response (R180, R183, R196). -/
def Obligations.CommandsAbortExactlyOnBrokenContracts : Prop :=
  ∀ (i : Instr) (s : State), s.aborted = none →
    (i.wf = true → ∃ t d, exec i s = .next t ∧ t.aborted = none ∧ t.response = some (.ok d)) ∧
    (i.wf = false → ∃ c, exec i s = .next { s with aborted := some c, response := some (.abort c) })

/-- R183: an aborting command, or an `Invalid` word, performs none of its writes; the latch takes the cause; the
response is `ABORT` with the cause code; the abort output is asserted, and stays so until reset. -/
def Obligations.AbortEntryIsPreciseAndSticky : Prop :=
  (∀ (i : Instr) (s t : State) (c : Cause), exec i s = .next t → t.response = some (.abort c) →
    t = { s with aborted := some c, response := some (.abort c) } ∧ t.abortOutput = true) ∧
  (∀ (s : State) (w : CmdWord) (p : Payload) (rest : List PortInput) (e : DecodeError), s.aborted = none →
    s.port = .command w p :: rest → decode w p = .error e →
    step s = .next { s with port := rest, aborted := some .reservedEncoding,
                            response := some (.abort .reservedEncoding) }) ∧
  (∀ c, Response.status (.abort c) = 1 ∧ Response.causeCode (.abort c) = c.code) ∧
  (∀ s t : State, s.abortOutput = true → step s = .next t → ∃ rest, s.port = .reset :: rest)

/-- R181, R182: which command raises which cause, and when, with the codes 1 to 5. `WrongWidth` and the
reserved selectors are checked before the mode; `RegionRange` is raised by no command. -/
def Obligations.CausesFollowTheTable : Prop :=
  (∀ (i : Instr) (s t : State), exec i s = .next t →
    (t.response = some (.abort .wrongWidth) ↔
      (∃ r, i = .rd8 (.r16 r)) ∨ (∃ r v, i = .wr8 (.r16 r) v) ∨ (∃ r m, i = .rd16 (.r8 r) m) ∨
      (∃ r v, i = .wr16 (.r8 r) v)) ∧
    (t.response ≠ some (.abort .regionRange)) ∧
    (t.response = some (.abort .tileIndexRange) ↔ ∃ id : Word, i = .tget id ∧ 255 < id.toNat) ∧
    (t.response = some (.abort .displayBounds) ↔
      ∃ x y : Byte, (i = .dget x y ∨ ∃ c, i = .dset c x y) ∧ (160 ≤ x.toNat ∨ 144 ≤ y.toNat)) ∧
    (t.response = some (.abort .reservedEncoding) ↔
      (∃ reg, (reg = .reserved14 ∨ reg = .reserved15) ∧
        (i = .rd8 reg ∨ (∃ v, i = .wr8 reg v) ∨ (∃ m, i = .rd16 reg m) ∨ ∃ v, i = .wr16 reg v)) ∨
      (∃ r, i = .rd16 (.r16 r) .reserved) ∨
      (∃ r m, r ≠ .HL ∧ (m = .increment ∨ m = .decrement) ∧ i = .rd16 (.r16 r) m))) ∧
  (∀ (s : State) (w : CmdWord) (p : Payload) (rest : List PortInput) (e : DecodeError), s.aborted = none →
    s.port = .command w p :: rest → decode w p = .error e →
    ∃ t, step s = .next t ∧ t.aborted = some .reservedEncoding) ∧
  (Cause.wrongWidth.code = 1 ∧ Cause.regionRange.code = 2 ∧ Cause.tileIndexRange.code = 3 ∧
    Cause.displayBounds.code = 4 ∧ Cause.reservedEncoding.code = 5 ∧ ∀ d, Response.causeCode (.ok d) = 0)

/-- Every step keeps the invariant of the reachable states, under every configuration: the low nibble of `F`
clear (R12), the cell list canonical, the latch and the response in agreement (R183), `RegionRange` never raised
(R54). -/
def Obligations.EveryStepKeepsTheInvariant : Prop :=
  (∀ (cfg : Config) (s t : State), s.Inv cfg → stepWith cfg s = .next t → t.Inv cfg) ∧
  (∀ s t : State, s.Inv Config.hardware → step s = .next t → t.Inv Config.hardware)

/-- The reset state meets the invariant, under every configuration. -/
def Obligations.ResetMeetsTheInvariant : Prop :=
  (∀ cfg : Config, (State.resetWith cfg).Inv cfg) ∧ State.reset.Inv Config.hardware

/-- R12: `F[3:0] = 0` at reset, every step keeps it, and every write path of `F` masks: `WR8 F` and `WR16 AF`
store `v & 0xF0`, `FSET` changes one of bits 7 to 4 only. -/
def Obligations.FlagLowNibbleStaysZero : Prop :=
  State.reset.F &&& 0x0F = 0 ∧
  (∀ s t : State, s.F &&& 0x0F = 0 → step s = .next t → t.F &&& 0x0F = 0) ∧
  (∀ (s : State) (v : Byte), ∃ t, exec (.wr8 (.r8 .F) v) s = .next t ∧ t.F = v &&& 0xF0) ∧
  (∀ (s : State) (v : Word), ∃ t, exec (.wr16 (.r16 .AF) v) s = .next t ∧ t.F = v.extractLsb' 0 8 &&& 0xF0) ∧
  (∀ (s : State) (f : Flag) (b : Bool), ∃ t, exec (.fset f b) s = .next t ∧
    ∃ k, 4 ≤ k ∧ k ≤ 7 ∧ ∀ j, j ≠ k → t.F.getLsbD j = s.F.getLsbD j)

/-- R19: no command of the bus and tile/pixel families reads or writes a field of the Register File: run with
any other Register File, it does the same and leaves that Register File as it was. -/
def Obligations.OtherFamiliesIgnoreTheRegisterFile : Prop :=
  ∀ (i : Instr) (s r t : State), inRegisterFileFamily i = false → exec i s = .next t →
    exec i (s.withRegisterFile r) = .next (t.withRegisterFile r) ∧ t = t.withRegisterFile s

/-- Every change of a bus cell by a command is a `BWR` (R61, R47), and every byte is as before otherwise. -/
def Obligations.OnlyBwrChangesTheBus : Prop :=
  ∀ (i : Instr) (s t : State), exec i s = .next t → (∀ a v, i ≠ .bwr a v) →
    t.mem = s.mem ∧ ∀ a, t.byteAt a = s.byteAt a

/-- The frame buffer is written by `DSET` and `DUPD` alone (R24, R62). -/
def Obligations.OnlyDsetAndDupdChangeTheFrameBuffer : Prop :=
  ∀ (i : Instr) (s t : State), exec i s = .next t → (∀ c x y, i ≠ .dset c x y) → i ≠ .dupd → t.fb = s.fb

/-- `PC` changes only by `WR16 PC`, `SP` only by `WR16 SP`, `IME` only by `IMESET`, `HW` only by `HWSET`, as far
as commands go (R15 to R18, R113); each general register only by the commands that name it. -/
def Obligations.RegistersChangeOnlyByTheirOwnCommands : Prop :=
  ∀ (i : Instr) (s t : State), exec i s = .next t →
    (t.PC ≠ s.PC → ∃ v, i = .wr16 (.r16 .PC) v) ∧
    (t.SP ≠ s.SP → ∃ v, i = .wr16 (.r16 .SP) v) ∧
    (t.IME ≠ s.IME → ∃ b, i = .imeset b) ∧
    (t.HW ≠ s.HW → ∃ b, i = .hwset b) ∧
    (t.A ≠ s.A → (∃ v, i = .wr8 (.r8 .A) v) ∨ ∃ v, i = .wr16 (.r16 .AF) v) ∧
    (t.B ≠ s.B → (∃ v, i = .wr8 (.r8 .B) v) ∨ ∃ v, i = .wr16 (.r16 .BC) v) ∧
    (t.C ≠ s.C → (∃ v, i = .wr8 (.r8 .C) v) ∨ ∃ v, i = .wr16 (.r16 .BC) v) ∧
    (t.D ≠ s.D → (∃ v, i = .wr8 (.r8 .D) v) ∨ ∃ v, i = .wr16 (.r16 .DE) v) ∧
    (t.E ≠ s.E → (∃ v, i = .wr8 (.r8 .E) v) ∨ ∃ v, i = .wr16 (.r16 .DE) v) ∧
    (t.H ≠ s.H → (∃ v, i = .wr8 (.r8 .H) v) ∨ ∃ v, i = .wr16 (.r16 .HL) v) ∧
    (t.L ≠ s.L → (∃ v, i = .wr8 (.r8 .L) v) ∨ (∃ v, i = .wr16 (.r16 .HL) v) ∨
      ∃ m, (m = .increment ∨ m = .decrement) ∧ i = .rd16 (.r16 .HL) m)

/-- No flag is computed from a result: `F` changes only when `FSET`, `WR8 F` or `WR16 AF` writes it (R114). -/
def Obligations.FlagsChangeOnlyWhenWritten : Prop :=
  ∀ (i : Instr) (s t : State), exec i s = .next t → t.F ≠ s.F →
    (∃ f b, i = .fset f b) ∨ (∃ v, i = .wr8 (.r8 .F) v) ∨ ∃ v, i = .wr16 (.r16 .AF) v

/-- R210: `RD16 HL+` and `RD16 HL-` step `L` once more with each issue; every other read changes nothing but
the response, and repeated it does the same again. -/
def Obligations.OnlyTheSteppingReadChangesState : Prop :=
  (∀ (i : Instr) (s t : State), isPlainRead i = true → exec i s = .next t →
    t = { s with aborted := t.aborted, response := t.response } ∧ exec i t = .next t) ∧
  (∀ s : State, ∃ t u, exec (.rd16 (.r16 .HL) .increment) s = .next t ∧
    exec (.rd16 (.r16 .HL) .increment) t = .next u ∧ t.L = s.L + 1 ∧ u.L = s.L + 2 ∧ u.H = s.H) ∧
  (∀ s : State, ∃ t u, exec (.rd16 (.r16 .HL) .decrement) s = .next t ∧
    exec (.rd16 (.r16 .HL) .decrement) t = .next u ∧ t.L = s.L - 1 ∧ u.L = s.L - 2 ∧ u.H = s.H)

/-! ### Register File commands -/

/-- R100, `RD8`: the response is the named register and nothing else changes; the other selectors abort; the
words; `F` is read with bits 3 to 0 zero wherever they are zero. -/
def Obligations.Rd8ReadsTheNamedRegister : Prop :=
  (∀ s : State,
    exec (.rd8 (.r8 .A)) s = .next { s with response := some (.ok (.byte s.A)) } ∧
    exec (.rd8 (.r8 .F)) s = .next { s with response := some (.ok (.byte s.F)) } ∧
    exec (.rd8 (.r8 .B)) s = .next { s with response := some (.ok (.byte s.B)) } ∧
    exec (.rd8 (.r8 .C)) s = .next { s with response := some (.ok (.byte s.C)) } ∧
    exec (.rd8 (.r8 .D)) s = .next { s with response := some (.ok (.byte s.D)) } ∧
    exec (.rd8 (.r8 .E)) s = .next { s with response := some (.ok (.byte s.E)) } ∧
    exec (.rd8 (.r8 .H)) s = .next { s with response := some (.ok (.byte s.H)) } ∧
    exec (.rd8 (.r8 .L)) s = .next { s with response := some (.ok (.byte s.L)) }) ∧
  (∀ (s : State) (r : Reg16),
    exec (.rd8 (.r16 r)) s = .next { s with aborted := some .wrongWidth, response := some (.abort .wrongWidth) }) ∧
  (∀ (s : State) (reg : Sel), reg = .reserved14 ∨ reg = .reserved15 →
    exec (.rd8 reg) s =
      .next { s with aborted := some .reservedEncoding, response := some (.abort .reservedEncoding) }) ∧
  (∀ (code : BitVec 4) (p : Payload), decode (0x10#8 ++ code ++ 0#20) p = .ok (.rd8 (.ofCode code))) ∧
  (∀ s : State, s.F &&& 0x0F = 0 → ∃ t v, exec (.rd8 (.r8 .F)) s = .next t ∧
    t.response = some (.ok (.byte v)) ∧ v &&& 0x0F = 0)

/-- R101, `WR8`: the named register takes the value, `F` the value masked by 0xF0, and no other field changes;
the other selectors abort; the words. -/
def Obligations.Wr8WritesTheNamedRegister : Prop :=
  (∀ (s : State) (v : Byte),
    exec (.wr8 (.r8 .A) v) s = .next { s with A := v, response := some (.ok .none) } ∧
    exec (.wr8 (.r8 .F) v) s = .next { s with F := v &&& 0xF0, response := some (.ok .none) } ∧
    exec (.wr8 (.r8 .B) v) s = .next { s with B := v, response := some (.ok .none) } ∧
    exec (.wr8 (.r8 .C) v) s = .next { s with C := v, response := some (.ok .none) } ∧
    exec (.wr8 (.r8 .D) v) s = .next { s with D := v, response := some (.ok .none) } ∧
    exec (.wr8 (.r8 .E) v) s = .next { s with E := v, response := some (.ok .none) } ∧
    exec (.wr8 (.r8 .H) v) s = .next { s with H := v, response := some (.ok .none) } ∧
    exec (.wr8 (.r8 .L) v) s = .next { s with L := v, response := some (.ok .none) }) ∧
  (∀ (s : State) (v : Byte) (f : Flag), ∃ t, exec (.wr8 (.r8 .F) v) s = .next t ∧
    flagOf t.F f = v.getLsbD (7 - f.code.toNat)) ∧
  (∀ (s : State) (r : Reg16) (v : Byte),
    exec (.wr8 (.r16 r) v) s =
      .next { s with aborted := some .wrongWidth, response := some (.abort .wrongWidth) }) ∧
  (∀ (s : State) (reg : Sel) (v : Byte), reg = .reserved14 ∨ reg = .reserved15 →
    exec (.wr8 reg v) s =
      .next { s with aborted := some .reservedEncoding, response := some (.abort .reservedEncoding) }) ∧
  (∀ (code : BitVec 4) (v : Byte) (p : Payload),
    decode (0x11#8 ++ code ++ 0#12 ++ v) p = .ok (.wr8 (.ofCode code) v))

/-- R102, `RD16`: the response is the pair (high register in bits 15 to 8), `SP` or `PC` as it was before the
command; `HL+` and `HL-` then step `L` modulo 256 and leave `H` and `F`; every other selector or mode aborts
and steps nothing; the words; `AF` reads with bits 3 to 0 zero wherever those of `F` are. -/
def Obligations.Rd16ReadsThePairAndStepsL : Prop :=
  (∀ s : State,
    exec (.rd16 (.r16 .AF) .normal) s = .next { s with response := some (.ok (.word (s.A ++ s.F))) } ∧
    exec (.rd16 (.r16 .BC) .normal) s = .next { s with response := some (.ok (.word (s.B ++ s.C))) } ∧
    exec (.rd16 (.r16 .DE) .normal) s = .next { s with response := some (.ok (.word (s.D ++ s.E))) } ∧
    exec (.rd16 (.r16 .HL) .normal) s = .next { s with response := some (.ok (.word (s.H ++ s.L))) } ∧
    exec (.rd16 (.r16 .SP) .normal) s = .next { s with response := some (.ok (.word s.SP)) } ∧
    exec (.rd16 (.r16 .PC) .normal) s = .next { s with response := some (.ok (.word s.PC)) } ∧
    exec (.rd16 (.r16 .HL) .increment) s =
      .next { s with L := s.L + 1, response := some (.ok (.word (s.H ++ s.L))) } ∧
    exec (.rd16 (.r16 .HL) .decrement) s =
      .next { s with L := s.L - 1, response := some (.ok (.word (s.H ++ s.L))) }) ∧
  (∀ (s : State) (r : Reg8) (m : Mode),
    exec (.rd16 (.r8 r) m) s = .next { s with aborted := some .wrongWidth, response := some (.abort .wrongWidth) }) ∧
  (∀ (s : State) (reg : Sel) (m : Mode), reg = .reserved14 ∨ reg = .reserved15 →
    exec (.rd16 reg m) s =
      .next { s with aborted := some .reservedEncoding, response := some (.abort .reservedEncoding) }) ∧
  (∀ (s : State) (r : Reg16) (m : Mode), m = .reserved ∨ (m ≠ .normal ∧ r ≠ .HL) →
    exec (.rd16 (.r16 r) m) s =
      .next { s with aborted := some .reservedEncoding, response := some (.abort .reservedEncoding) }) ∧
  (∀ (code : BitVec 4) (mode : BitVec 2) (p : Payload),
    decode (0x12#8 ++ code ++ mode ++ 0#18) p = .ok (.rd16 (.ofCode code) (.ofCode mode))) ∧
  (∀ s : State, s.F &&& 0x0F = 0 → ∃ t v, exec (.rd16 (.r16 .AF) .normal) s = .next t ∧
    t.response = some (.ok (.word v)) ∧ v &&& 0x000F = 0)

/-- R103, `WR16`: both halves of the pair, or `SP` or `PC` whole, take the value in one step, the low byte of
`AF` masked; nothing else changes (`WR16 PC` transfers no control); other selectors abort; the words, and
those with a non-zero `mode` field are `Invalid`. -/
def Obligations.Wr16WritesThePair : Prop :=
  (∀ (s : State) (v : Word),
    exec (.wr16 (.r16 .AF) v) s = .next { s with A := v.extractLsb' 8 8, F := v.extractLsb' 0 8 &&& 0xF0,
                                                 response := some (.ok .none) } ∧
    exec (.wr16 (.r16 .BC) v) s = .next { s with B := v.extractLsb' 8 8, C := v.extractLsb' 0 8,
                                                 response := some (.ok .none) } ∧
    exec (.wr16 (.r16 .DE) v) s = .next { s with D := v.extractLsb' 8 8, E := v.extractLsb' 0 8,
                                                 response := some (.ok .none) } ∧
    exec (.wr16 (.r16 .HL) v) s = .next { s with H := v.extractLsb' 8 8, L := v.extractLsb' 0 8,
                                                 response := some (.ok .none) } ∧
    exec (.wr16 (.r16 .SP) v) s = .next { s with SP := v, response := some (.ok .none) } ∧
    exec (.wr16 (.r16 .PC) v) s = .next { s with PC := v, response := some (.ok .none) }) ∧
  (∀ (s : State) (r : Reg8) (v : Word),
    exec (.wr16 (.r8 r) v) s = .next { s with aborted := some .wrongWidth, response := some (.abort .wrongWidth) }) ∧
  (∀ (s : State) (reg : Sel) (v : Word), reg = .reserved14 ∨ reg = .reserved15 →
    exec (.wr16 reg v) s =
      .next { s with aborted := some .reservedEncoding, response := some (.abort .reservedEncoding) }) ∧
  (∀ (code : BitVec 4) (v : Word) (p : Payload),
    decode (0x13#8 ++ code ++ 0#4 ++ v) p = .ok (.wr16 (.ofCode code) v)) ∧
  (∀ (code : BitVec 4) (mode : BitVec 2) (v : Word) (p : Payload), mode ≠ 0 →
    decode (0x13#8 ++ code ++ mode ++ 0#2 ++ v) p = .error .mustBeZero)

/-- R104, `FGET`: the response is the flag's bit of `F`, `Z` bit 7 to `C` bit 4; nothing else changes; the words. -/
def Obligations.FgetReadsOneFlag : Prop :=
  (∀ s : State,
    exec (.fget .Z) s = .next { s with response := some (.ok (.bit (s.F.getLsbD 7))) } ∧
    exec (.fget .N) s = .next { s with response := some (.ok (.bit (s.F.getLsbD 6))) } ∧
    exec (.fget .H) s = .next { s with response := some (.ok (.bit (s.F.getLsbD 5))) } ∧
    exec (.fget .C) s = .next { s with response := some (.ok (.bit (s.F.getLsbD 4))) }) ∧
  (∀ (code : BitVec 2) (p : Payload), decode (0x14#8 ++ code ++ 0#22) p = .ok (.fget (.ofCode code)))

/-- R105, `FSET`: the named flag's bit of `F` takes `b`, every other bit of `F` and every other field keeps its
value; the words. -/
def Obligations.FsetWritesOneFlag : Prop :=
  (∀ (s : State) (f : Flag) (b : Bool), ∃ F' : Byte,
    exec (.fset f b) s = .next { s with F := F', response := some (.ok .none) } ∧
    F'.getLsbD (7 - f.code.toNat) = b ∧ ∀ j, j ≠ 7 - f.code.toNat → F'.getLsbD j = s.F.getLsbD j) ∧
  (∀ (code : BitVec 2) (b : Bool) (p : Payload),
    decode (0x15#8 ++ code ++ 0#21 ++ BitVec.ofBool b) p = .ok (.fset (.ofCode code) b))

/-- R106 to R109: the two latches are read and written plainly, at once, neither touching the other; the words. -/
def Obligations.LatchesAreReadAndWrittenPlainly : Prop :=
  (∀ s : State, exec .imeget s = .next { s with response := some (.ok (.bit s.IME)) }) ∧
  (∀ (s : State) (b : Bool), exec (.imeset b) s = .next { s with IME := b, response := some (.ok .none) }) ∧
  (∀ s : State, exec .hwget s = .next { s with response := some (.ok (.bit s.HW)) }) ∧
  (∀ (s : State) (b : Bool), exec (.hwset b) s = .next { s with HW := b, response := some (.ok .none) }) ∧
  (∀ p : Payload, decode 0x16000000 p = .ok .imeget ∧ decode 0x18000000 p = .ok .hwget ∧
    decode 0x17000000 p = .ok (.imeset false) ∧ decode 0x17000001 p = .ok (.imeset true) ∧
    decode 0x19000000 p = .ok (.hwset false) ∧ decode 0x19000001 p = .ok (.hwset true))

/-- R110, `ICLS`: the five lines are bits 4 to 0 of the byte, joypad first; bits 7 to 5 are ignored; no state
but the response changes; the words. -/
def Obligations.IclsClassifiesTheByte : Prop :=
  (∀ (s : State) (v : Byte),
    exec (.icls v) s = .next { s with response := some (.ok (.lines (v.extractLsb' 0 5))) }) ∧
  (∀ v : Byte, classify v = ⟨v.getLsbD 4, v.getLsbD 3, v.getLsbD 2, v.getLsbD 1, v.getLsbD 0⟩) ∧
  (∀ (v : Byte) (p : Payload), decode (0x1A#8 ++ 0#16 ++ v) p = .ok (.icls v))

/-- R111, `INTQ`: the ten lines are bits 4 to 0 of the byte at 0xFF0F above bits 4 to 0 of the byte at 0xFFFF,
uncombined, the same as two `BRD` and two `ICLS` give; nothing else changes and `IME` is not consulted. -/
def Obligations.IntqReturnsBothDecompositions : Prop :=
  (∀ s : State, exec .intq s = .next { s with
    response := some (.ok (.linePair ((s.byteAt 0xFF0F).extractLsb' 0 5 ++ (s.byteAt 0xFFFF).extractLsb' 0 5))) }) ∧
  (∀ s : State, ∃ requested enabled,
    exec (.icls (s.byteAt 0xFF0F)) s = .next { s with response := some (.ok (.lines requested)) } ∧
    exec (.icls (s.byteAt 0xFFFF)) s = .next { s with response := some (.ok (.lines enabled)) } ∧
    exec .intq s = .next { s with response := some (.ok (.linePair (requested ++ enabled))) }) ∧
  (∀ p : Payload, decode 0x1B000000 p = .ok .intq)

/-- R115: `WR16` then `RD16` returns the value for `BC DE HL SP PC` and the value masked by 0xFFF0 for `AF`;
`WR8` then `RD8` returns the value for `A B C D E H L` and the value masked by 0xF0 for `F`. -/
def Obligations.RegisterWritesReadBack : Prop :=
  (∀ (s : State) (r : Reg16) (v : Word), ∃ t u, exec (.wr16 (.r16 r) v) s = .next t ∧
    exec (.rd16 (.r16 r) .normal) t = .next u ∧
    u.response = some (.ok (.word (if r = .AF then v &&& 0xFFF0 else v)))) ∧
  (∀ (s : State) (r : Reg8) (v : Byte), ∃ t u, exec (.wr8 (.r8 r) v) s = .next t ∧
    exec (.rd8 (.r8 r)) t = .next u ∧
    u.response = some (.ok (.byte (if r = .F then v &&& 0xF0 else v))))

/-! ### Memory Bus commands -/

/-- R41, R42: the twelve regions with their first and last address and size; every address lies in exactly one,
`Route` gives that region and the address less its base, and two addresses never name one cell
(`cfg.ECHO_MIRROR` false). -/
def Obligations.RouteIsTotalAndOneToOne : Prop :=
  [Region.rom0, .romX, .vram, .eram, .wram0, .wramX, .echo, .oam, .unused, .io, .hram, .ie].map
      (fun r => (r.base, r.base + r.size - 1, r.size)) =
    [(0x0000, 0x3FFF, 16384), (0x4000, 0x7FFF, 16384), (0x8000, 0x9FFF, 8192), (0xA000, 0xBFFF, 8192),
     (0xC000, 0xCFFF, 4096), (0xD000, 0xDFFF, 4096), (0xE000, 0xFDFF, 7680), (0xFE00, 0xFE9F, 160),
     (0xFEA0, 0xFEFF, 96), (0xFF00, 0xFF7F, 128), (0xFF80, 0xFFFE, 127), (0xFFFF, 0xFFFF, 1)] ∧
  (∀ a : Word, ∃ r i, route Config.hardware a = (r, i) ∧ i < r.size ∧ a.toNat = r.base + i ∧
    ∀ r', r'.base ≤ a.toNat → a.toNat < r'.base + r'.size → r' = r) ∧
  (∀ (cfg : Config) (a b : Word), cfg.echoMirror = false → route cfg a = route cfg b → a = b)

/-- R49: Echo is storage of its own: a `BWR` to 0xC000 to 0xDDFF changes no byte of 0xE000 to 0xFDFF, and the
reverse; with `cfg.ECHO_MIRROR` true an Echo address routes as the address 0x2000 below it. -/
def Obligations.EchoIsStorageOfItsOwn : Prop :=
  (∀ (s : State) (a b : Word) (v : Byte), 0xC000 ≤ a.toNat → a.toNat ≤ 0xDDFF → 0xE000 ≤ b.toNat →
    b.toNat ≤ 0xFDFF →
    (∃ t, exec (.bwr a v) s = .next t ∧ t.byteAt b = s.byteAt b) ∧
    ∃ t, exec (.bwr b v) s = .next t ∧ t.byteAt a = s.byteAt a) ∧
  (∀ (cfg : Config) (a : Word), cfg.echoMirror = true → 0xE000 ≤ a.toNat → a.toNat ≤ 0xFDFF →
    route cfg a = route cfg (a - 0x2000)) ∧
  Config.hardware.echoMirror = false

/-- R43: every video-RAM address falls in exactly one of the five parts, and no other address in any. -/
def Obligations.VramPartsPartitionVideoRam : Prop :=
  [VramPart.tileBlock0, .tileBlock1, .tileBlock2, .tileMap0, .tileMap1].map (fun p => (p.first, p.last)) =
    [(0x8000, 0x87FF), (0x8800, 0x8FFF), (0x9000, 0x97FF), (0x9800, 0x9BFF), (0x9C00, 0x9FFF)] ∧
  (∀ (a : Word) (p : VramPart), vramPart a = some p ↔ p.first ≤ a.toNat ∧ a.toNat ≤ p.last) ∧
  (∀ a : Word, (∃ i, route Config.hardware a = (.vram, i)) ↔ ∃ p, vramPart a = some p)

/-- R131, `BRD`: the response is the byte of the cell; nothing else changes; the words. -/
def Obligations.BrdReadsTheCell : Prop :=
  (∀ (s : State) (a : Word), exec (.brd a) s = .next { s with response := some (.ok (.byte (s.byteAt a))) }) ∧
  (∀ (s : State) (a : Word), s.byteAt a = Memory.read Config.hardware s.mem a.toNat) ∧
  (∀ (a : Word) (p : Payload), decode (0x20#8 ++ a ++ 0#8) p = .ok (.brd a))

/-- R132, `BWR`: the cell takes all 8 bits of the value at every address, ROM and I/O cells alike; every other
byte and every other field is unchanged, the frame buffer among them; the words. -/
def Obligations.BwrWritesTheCellAlone : Prop :=
  (∀ (s : State) (a : Word) (v : Byte), ∃ mem',
    exec (.bwr a v) s = .next { s with mem := mem', response := some (.ok .none) } ∧
    Memory.read Config.hardware mem' a.toNat = v ∧
    ∀ b : Word, b ≠ a → Memory.read Config.hardware mem' b.toNat = Memory.read Config.hardware s.mem b.toNat) ∧
  (∀ (a : Word) (v : Byte) (p : Payload), decode (0x21#8 ++ a ++ v) p = .ok (.bwr a v))

/-- R136: `BWR a, x` then `BRD a` returns `x` at every address; Echo 0xE000 and work RAM 0xC000 round-trip
independently. -/
def Obligations.BusWritesReadBack : Prop :=
  (∀ (s : State) (a : Word) (x : Byte), ∃ t u, exec (.bwr a x) s = .next t ∧ exec (.brd a) t = .next u ∧
    u.response = some (.ok (.byte x))) ∧
  (∀ (s : State) (p q : Byte), ∃ t u v w, exec (.bwr 0xC000 p) s = .next t ∧ exec (.bwr 0xE000 q) t = .next u ∧
    exec (.brd 0xC000) u = .next v ∧ v.response = some (.ok (.byte p)) ∧
    exec (.brd 0xE000) v = .next w ∧ w.response = some (.ok (.byte q)))

/-- R130, `TileAddr`: block 1 for identifiers 128 to 255 at offset `(id - 128) * stride`; block 0 or
`cfg.LOW_ID_BASE_WHEN_CLEAR` for the rest by the tile-data bit; an identifier above 255 aborts. -/
def Obligations.TileAddrPlacesTheTile : Prop :=
  (∀ (cfg : Config) (id lcdc : Byte), tileAddr cfg id lcdc =
    BitVec.ofNat 16 (if 128 ≤ id.toNat then 0x8800 + (id.toNat - 128) * cfg.tileStride
      else if lcdc.getLsbD cfg.lcdcTileDataBit then 0x8000 + id.toNat * cfg.tileStride
      else cfg.lowIdBaseWhenClear.toNat + id.toNat * cfg.tileStride)) ∧
  (∀ (s : State) (id : Word), 255 < id.toNat → exec (.tget id) s =
    .next { s with aborted := some .tileIndexRange, response := some (.abort .tileIndexRange) })

/-- The consequences of R130 with the defaults, which the spec marks as derived: one run of 256 tiles when bit 4
of LCD-control is set; identifiers `n` and `n + 128` alias when it is clear; no byte outside blocks 0 and 1. -/
def Obligations.TileAddrConsequencesWithTheDefaults : Prop :=
  (∀ id lcdc : Byte, lcdc.getLsbD 4 = true → (tileAddr Config.hardware id lcdc).toNat = 0x8000 + 16 * id.toNat) ∧
  (∀ id lcdc : Byte, lcdc.getLsbD 4 = false →
    (tileAddr Config.hardware id lcdc).toNat = 0x8800 + 16 * (id.toNat % 128)) ∧
  (∀ id lcdc : Byte, ∀ k, k < 16 → 0x8000 ≤ (tileAddr Config.hardware id lcdc + BitVec.ofNat 16 k).toNat ∧
    (tileAddr Config.hardware id lcdc + BitVec.ofNat 16 k).toNat ≤ 0x8FFF)

/-- R133, `LDT`: the response is the count and the tiles of the identifiers 0 to 255, ascending, whose sixteen
bytes are not all zero; nothing else changes; an all-zero video RAM gives none; a non-zero byte in a tile's
span puts its tile in the list; bytes outside blocks 0 and 1 and the LCD-control byte do not matter; the word. -/
def Obligations.LdtListsTheNonBlankTiles : Prop :=
  (∀ s : State, ∃ (lcdc : Byte) (ids : List Byte), lcdc = s.byteAt Config.hardware.addrLCDC ∧
    ids = ((List.range 256).map (BitVec.ofNat 8)).filter (fun id => (List.range 16).any fun k =>
      s.byteAt (tileAddr Config.hardware id lcdc + BitVec.ofNat 16 k) != 0) ∧
    exec .ldt s = .next { s with response := some (.ok (.tiles (BitVec.ofNat 9 ids.length)
      (ids.map fun id => packTile (tileAt Config.hardware s.mem id lcdc)))) } ∧
    ids.length ≤ 256 ∧
    ∀ id k, k < 16 → s.byteAt (tileAddr Config.hardware id lcdc + BitVec.ofNat 16 k) ≠ 0 → id ∈ ids) ∧
  (∀ s : State, (∀ a : Word, 0x8000 ≤ a.toNat → a.toNat ≤ 0x9FFF → s.byteAt a = 0) →
    exec .ldt s = .next { s with response := some (.ok (.tiles 0 [])) }) ∧
  (∀ (s t : State) (d : Data), t.byteAt Config.hardware.addrLCDC = s.byteAt Config.hardware.addrLCDC →
    (∀ a : Word, 0x8000 ≤ a.toNat → a.toNat ≤ 0x8FFF → t.byteAt a = s.byteAt a) →
    exec .ldt s = .next { s with response := some (.ok d) } →
    exec .ldt t = .next { t with response := some (.ok d) }) ∧
  (∀ p : Payload, decode 0x22000000 p = .ok .ldt)

/-- R133 (d), which the spec marks as derived: a tile of sixteen bytes not all zero is never all `C0`. -/
def Obligations.NonBlankTilesShowAColour : Prop :=
  ∀ b : Vector Byte 16, (∃ k, b.get k ≠ 0) → packTile (decodeTile b) ≠ 0

/-- R134, `TGET`: for an identifier up to 255 the response is the tile at `TileAddr`, line `k` from bytes `2k`
and `2k + 1`, a blank tile included; above 255 it aborts; nothing else changes; the words. -/
def Obligations.TgetDecodesOneTile : Prop :=
  (∀ (s : State) (id : Word), id.toNat ≤ 255 → ∃ p : BitVec 128,
    exec (.tget id) s = .next { s with response := some (.ok (.tile p)) } ∧
    ∀ k, k < 8 → p.extractLsb' (16 * k) 16 = packLine (decodeLine
      (s.byteAt (tileAddr Config.hardware (id.setWidth 8) (s.byteAt Config.hardware.addrLCDC) + BitVec.ofNat 16 (2 * k)))
      (s.byteAt (tileAddr Config.hardware (id.setWidth 8) (s.byteAt Config.hardware.addrLCDC) + BitVec.ofNat 16 (2 * k + 1))))) ∧
  (∀ (s : State) (id : Word), 255 < id.toNat → exec (.tget id) s =
    .next { s with aborted := some .tileIndexRange, response := some (.abort .tileIndexRange) }) ∧
  (∀ (id : Word) (p : Payload), decode (0x23#8 ++ 0#8 ++ id) p = .ok (.tget id))

/-! ### Tile/Pixel commands -/

/-- R150, `DecodeLine`: pixel `i` is bit `7 - i` of the high plane above bit `7 - i` of the low plane; two byte
pairs never give one line; a pixel is `C0` exactly when both its plane bits are 0. -/
def Obligations.DecodeLineUnpacksThePlanes : Prop :=
  (∀ (lo hi : Byte) (i : Fin 8), (decodeLine lo hi).get i =
    BitVec.ofBool (hi.getLsbD (7 - i)) ++ BitVec.ofBool (lo.getLsbD (7 - i))) ∧
  (∀ lo hi lo' hi' : Byte, decodeLine lo hi = decodeLine lo' hi' → lo = lo' ∧ hi = hi') ∧
  (∀ (lo hi : Byte) (i : Fin 8), (decodeLine lo hi).get i = 0 ↔
    lo.getLsbD (7 - i) = false ∧ hi.getLsbD (7 - i) = false)

/-- R87: a line packs with pixel `i` at bits `2(7-i)+1` and `2(7-i)`; bit `2p + 1` of a packed decoded line is
bit `p` of the high-plane byte and bit `2p` bit `p` of the low; a tile packs with line `k` at bit `16k` on. -/
def Obligations.PackingFollowsTheLayout : Prop :=
  (∀ (line : TileLine) (i : Fin 8), (packLine line).extractLsb' (2 * (7 - i)) 2 = line.get i) ∧
  (∀ (lo hi : Byte) (p : Nat), p < 8 → (packLine (decodeLine lo hi)).getLsbD (2 * p + 1) = hi.getLsbD p ∧
    (packLine (decodeLine lo hi)).getLsbD (2 * p) = lo.getLsbD p) ∧
  (∀ (tile : Tile) (k : Fin 8), (packTile tile).extractLsb' (16 * k) 16 = packLine (tile.get k))

/-- R153, `TLN`: the response packs the line whose planes are the two bytes; no state but the response
changes; the words. -/
def Obligations.TlnUnpacksOneLine : Prop :=
  (∀ (s : State) (lo hi : Byte), ∃ v : BitVec 16,
    exec (.tln lo hi) s = .next { s with response := some (.ok (.tileLine v)) } ∧
    ∀ p, p < 8 → v.getLsbD (2 * p + 1) = hi.getLsbD p ∧ v.getLsbD (2 * p) = lo.getLsbD p) ∧
  (∀ (lo hi : Byte) (p : Payload), decode (0x30#8 ++ lo ++ hi ++ 0#8) p = .ok (.tln lo hi))

/-- R154, `TIL`: line `k` of the response has payload byte `2k` as its low plane and byte `2k + 1` as its high
plane; no state but the response changes; the word, with any payload. -/
def Obligations.TilUnpacksThePayload : Prop :=
  (∀ (s : State) (payload : Payload), ∃ v : BitVec 128,
    exec (.til payload) s = .next { s with response := some (.ok (.tile v)) } ∧
    ∀ k p, k < 8 → p < 8 →
      v.getLsbD (16 * k + 2 * p) = payload.getLsbD (8 * (2 * k) + p) ∧
      v.getLsbD (16 * k + 2 * p + 1) = payload.getLsbD (8 * (2 * k + 1) + p)) ∧
  (∀ payload : Payload, decode 0x31000000 payload = .ok (.til payload))

/-- R155, `DSET`: the one pixel at column `x`, row `y` takes the colour, every other pixel and every other field
keeps its value; `x >= 160` or `y >= 144` aborts and writes nothing; the words. -/
def Obligations.DsetWritesOnePixel : Prop :=
  (∀ (s : State) (c : Color) (x : Fin 160) (y : Fin 144), ∃ fb',
    exec (.dset c (BitVec.ofNat 8 x) (BitVec.ofNat 8 y)) s =
      .next { s with fb := fb', response := some (.ok .none) } ∧
    FrameBuffer.pixel fb' x y = c ∧
    ∀ x' y', (x' ≠ x ∨ y' ≠ y) → FrameBuffer.pixel fb' x' y' = FrameBuffer.pixel s.fb x' y') ∧
  (∀ (s : State) (c : Color) (x y : Byte), 160 ≤ x.toNat ∨ 144 ≤ y.toNat → exec (.dset c x y) s =
    .next { s with aborted := some .displayBounds, response := some (.abort .displayBounds) }) ∧
  (∀ (c : Color) (x y : Byte) (p : Payload), decode (0x32#8 ++ 0#6 ++ c ++ x ++ y) p = .ok (.dset c x y))

/-- R156, `DGET`: the response is the pixel at column `x`, row `y`; nothing else changes; `x >= 160` or
`y >= 144` aborts; the words. -/
def Obligations.DgetReadsOnePixel : Prop :=
  (∀ (s : State) (x : Fin 160) (y : Fin 144),
    exec (.dget (BitVec.ofNat 8 x) (BitVec.ofNat 8 y)) s =
      .next { s with response := some (.ok (.color ((s.fb.get y).get x))) }) ∧
  (∀ (s : State) (x y : Byte), 160 ≤ x.toNat ∨ 144 ≤ y.toNat → exec (.dget x y) s =
    .next { s with aborted := some .displayBounds, response := some (.abort .displayBounds) }) ∧
  (∀ (x y : Byte) (p : Payload), decode (0x33#8 ++ 0#8 ++ x ++ y) p = .ok (.dget x y))

/-- R157 with R152, `DUPD`: every pixel takes the colour of the background at its place, from the scroll bytes,
the map that the map bit of LCD-control selects, and the tile at `TileAddr`, modulo 256 both ways; no other field
changes, no bus cell among them; the non-default gate blanks the frame; the word. -/
def Obligations.DupdRebuildsTheFrame : Prop :=
  (∀ s : State, ∃ fb', exec .dupd s = .next { s with fb := fb', response := some (.ok .none) } ∧
    ∀ (x : Fin 160) (y : Fin 144),
      let lcdc := s.byteAt Config.hardware.addrLCDC
      let column := (s.byteAt Config.hardware.addrSCX).toNat + x.val
      let row := (s.byteAt Config.hardware.addrSCY).toNat + y.val
      let mapBase := if lcdc.getLsbD Config.hardware.lcdcBgMapBit then 0x9C00 else 0x9800
      let id := s.byteAt (BitVec.ofNat 16 (mapBase + 32 * (row / 8 % 32) + column / 8 % 32))
      let line := tileAddr Config.hardware id lcdc + BitVec.ofNat 16 (2 * (row % 8))
      FrameBuffer.pixel fb' x y =
        BitVec.ofBool ((s.byteAt (line + 1)).getLsbD (7 - column % 8)) ++
          BitVec.ofBool ((s.byteAt line).getLsbD (7 - column % 8))) ∧
  (∀ (cfg : Config) (m : List Host.Cell), cfg.bgEnableGatesUpdate = true →
    (busRead cfg m cfg.addrLCDC).getLsbD cfg.lcdcBgEnableBit = false →
    ∀ x y, FrameBuffer.pixel (frameOf cfg m) x y = 0) ∧
  (∀ p : Payload, decode 0x34000000 p = .ok .dupd)

/-- R158, R159, `BGW`: the response packs the enable bit, the two scroll bytes and the window's bottom and right
edges, `scroll_y + 143` and `scroll_x + 159` modulo 256; nothing else changes; the word. -/
def Obligations.BgwReportsTheWindow : Prop :=
  (∀ s : State, exec .bgw s = .next { s with response := some (.ok (.window
    (BitVec.ofBool ((s.byteAt Config.hardware.addrLCDC).getLsbD Config.hardware.lcdcBgEnableBit) ++
      s.byteAt Config.hardware.addrSCY ++ s.byteAt Config.hardware.addrSCX ++
      (s.byteAt Config.hardware.addrSCY + 143) ++ (s.byteAt Config.hardware.addrSCX + 159)))) }) ∧
  (∀ scx scy : Byte, (bgWindow scx scy).1.toNat = (scy.toNat + 143) % 256 ∧
    (bgWindow scx scy).2.toNat = (scx.toNat + 159) % 256) ∧
  (∀ p : Payload, decode 0x35000000 p = .ok .bgw)

/-! ### The commands that read a parameter, under every configuration -/

/-- R111, R131, R132, with R42 and R49 under any `cfg.ECHO_MIRROR`: `INTQ` reads the two bytes at `cfg.ADDR_IF` and
`cfg.ADDR_IE`; `BRD` reads the cell of its address, one that nothing has written since reset `cfg.MEM_RESET`;
`BWR` changes what the addresses of its cell read, and no other: alone its own address without a mirror, and with
one a work-RAM address and the Echo address 0x2000 above it together. -/
def Obligations.BusCommandsUnderEveryConfiguration : Prop :=
  (∀ (cfg : Config) (s : State), execWith cfg .intq s = .next { s with response := some (.ok (.linePair
    ((busRead cfg s.mem cfg.addrIF).extractLsb' 0 5 ++ (busRead cfg s.mem cfg.addrIE).extractLsb' 0 5))) }) ∧
  (∀ (cfg : Config) (s : State) (a : Word),
    execWith cfg (.brd a) s = .next { s with response := some (.ok (.byte (busRead cfg s.mem a))) }) ∧
  (∀ (cfg : Config) (a : Word), execWith cfg (.brd a) (State.resetWith cfg) =
    .next { State.resetWith cfg with response := some (.ok (.byte cfg.memReset)) }) ∧
  (∀ (cfg : Config) (s : State) (a : Word) (v : Byte), ∃ mem',
    execWith cfg (.bwr a v) s = .next { s with mem := mem', response := some (.ok .none) } ∧
    ∀ b : Word, busRead cfg mem' b = if route cfg b = route cfg a then v else busRead cfg s.mem b) ∧
  (∀ (cfg : Config) (a b : Word), cfg.echoMirror = false → (route cfg b = route cfg a ↔ b = a)) ∧
  (∀ (cfg : Config) (a : Word), cfg.echoMirror = true → 0xC000 ≤ a.toNat → a.toNat ≤ 0xDDFF →
    ∀ b, route cfg b = route cfg a ↔ b = a ∨ b = a + 0x2000)

/-- R133, R134 under any parameters: `LDT` and `TGET` decode the tiles at `TileAddr`, with the LCD-control byte at
`cfg.ADDR_LCDC`, its bit `cfg.LCDC_TILE_DATA_BIT`, `cfg.TILE_STRIDE` and `cfg.LOW_ID_BASE_WHEN_CLEAR`. -/
def Obligations.TileCommandsUnderEveryConfiguration : Prop :=
  (∀ (cfg : Config) (s : State), ∃ (lcdc : Byte) (ids : List Byte), lcdc = busRead cfg s.mem cfg.addrLCDC ∧
    ids = ((List.range 256).map (BitVec.ofNat 8)).filter (fun id => (List.range 16).any fun k =>
      busRead cfg s.mem (tileAddr cfg id lcdc + BitVec.ofNat 16 k) != 0) ∧
    execWith cfg .ldt s = .next { s with response := some (.ok (.tiles (BitVec.ofNat 9 ids.length)
      (ids.map fun id => packTile (tileAt cfg s.mem id lcdc)))) }) ∧
  (∀ (cfg : Config) (s : State) (id : Word), id.toNat ≤ 255 → ∃ (lcdc : Byte) (p : BitVec 128),
    lcdc = busRead cfg s.mem cfg.addrLCDC ∧
    execWith cfg (.tget id) s = .next { s with response := some (.ok (.tile p)) } ∧
    ∀ k, k < 8 → p.extractLsb' (16 * k) 16 = packLine (decodeLine
      (busRead cfg s.mem (tileAddr cfg (id.setWidth 8) lcdc + BitVec.ofNat 16 (2 * k)))
      (busRead cfg s.mem (tileAddr cfg (id.setWidth 8) lcdc + BitVec.ofNat 16 (2 * k + 1))))) ∧
  (∀ (cfg : Config) (s : State) (id : Word), 255 < id.toNat → execWith cfg (.tget id) s =
    .next { s with aborted := some .tileIndexRange, response := some (.abort .tileIndexRange) })

/-- R152, R157, R158, R159 under any parameters: `DUPD` builds the frame from the cells and bits that the
parameters name, or all `C0` while `cfg.BG_ENABLE_GATES_UPDATE` is set and the enable bit clear; `BGW` reports the
cells and the bit that they name. -/
def Obligations.FrameCommandsUnderEveryConfiguration : Prop :=
  (∀ (cfg : Config) (s : State), ∃ fb',
    execWith cfg .dupd s = .next { s with fb := fb', response := some (.ok .none) } ∧
    ∀ (x : Fin 160) (y : Fin 144),
      let lcdc := busRead cfg s.mem cfg.addrLCDC
      let column := (busRead cfg s.mem cfg.addrSCX).toNat + x.val
      let row := (busRead cfg s.mem cfg.addrSCY).toNat + y.val
      let mapBase := if lcdc.getLsbD cfg.lcdcBgMapBit then 0x9C00 else 0x9800
      let id := busRead cfg s.mem (BitVec.ofNat 16 (mapBase + 32 * (row / 8 % 32) + column / 8 % 32))
      let line := tileAddr cfg id lcdc + BitVec.ofNat 16 (2 * (row % 8))
      FrameBuffer.pixel fb' x y =
        if cfg.bgEnableGatesUpdate = true ∧ lcdc.getLsbD cfg.lcdcBgEnableBit = false then 0
        else BitVec.ofBool ((busRead cfg s.mem (line + 1)).getLsbD (7 - column % 8)) ++
          BitVec.ofBool ((busRead cfg s.mem line).getLsbD (7 - column % 8))) ∧
  (∀ (cfg : Config) (s : State), execWith cfg .bgw s = .next { s with response := some (.ok (.window
    (BitVec.ofBool ((busRead cfg s.mem cfg.addrLCDC).getLsbD cfg.lcdcBgEnableBit) ++
      busRead cfg s.mem cfg.addrSCY ++ busRead cfg s.mem cfg.addrSCX ++
      (busRead cfg s.mem cfg.addrSCY + 143) ++ (busRead cfg s.mem cfg.addrSCX + 159)))) })
end

