-- ==== Sys2Proof/Laws/Codec.lean ====
section
/-! SUPPORT. The operand codes as bijections (R83, R85, R86) and what the decoder's checks answer. -/

namespace Sys2Proof

@[simp] theorem Sel.ofCode_code (reg : Sel) : Sel.ofCode reg.code = reg := by
  rcases reg with r | r | _ | _
  · cases r <;> rfl
  · cases r <;> rfl
  · rfl
  · rfl

@[simp] theorem Sel.code_ofCode (c : BitVec 4) : (Sel.ofCode c).code = c := by
  revert c
  decide

@[simp] theorem Mode.ofCode_code (mode : Mode) : Mode.ofCode mode.code = mode := by
  cases mode <;> rfl

@[simp] theorem Mode.code_ofCode (c : BitVec 2) : (Mode.ofCode c).code = c := by
  revert c
  decide

@[simp] theorem Flag.ofCode_code (flag : Flag) : Flag.ofCode flag.code = flag := by
  cases flag <;> rfl

@[simp] theorem Flag.code_ofCode (c : BitVec 2) : (Flag.ofCode c).code = c := by
  revert c
  decide

/-- The must-be-zero check passes exactly when the field is zero, and then the command is as given. -/
theorem ifZero_ok_iff {zeros : Bool} {i j : Instr} : ifZero zeros i = .ok j ↔ zeros = true ∧ i = j := by
  cases zeros <;> simp [ifZero]

/-- Bit `k` of a field is bit `lo + k` of the word. -/
@[simp] theorem getElem_field (w : CmdWord) (hi lo k : Nat) (h : k < hi - lo + 1) :
    (field w hi lo)[k] = w.getLsbD (lo + k) := by
  simp [field]

/-- Bit `k` of a placed field. -/
@[simp] theorem getElem_place {n : Nat} (lo : Nat) (v : BitVec n) (k : Nat) (h : k < 32) :
    (place lo v)[k] = (!decide (k < lo) && v.getLsbD (k - lo)) := by
  simp [place]

/-- The bits of the word that a field covers. -/
theorem getLsbD_of_field {w : CmdWord} {hi lo : Nat} {v : BitVec (hi - lo + 1)} (h : field w hi lo = v) {k : Nat}
    (hlo : lo ≤ k) (hhi : k ≤ hi) : w.getLsbD k = v.getLsbD (k - lo) := by
  subst h
  have : k - lo < hi - lo + 1 := by omega
  simp [field, this, Nat.add_sub_cancel' hlo]

end Sys2Proof
end

