-- ==== Sys2Proof/Laws/Memory.lean ====
section
/-! SUPPORT. The cell list, the address decoder and the frame buffer: read after write, frames, the canonical
form, and what `Route` comes to on this hardware. -/

namespace Sys2Proof.Machine

/-! ### The cell list -/

theorem Memory.read_filter_same (cfg : Config) (m : List Host.Cell) (k : Nat) :
    Memory.read cfg (m.filter fun cell => cell.1 != k) k = Memory.unlisted cfg := by
  induction m with
  | nil => rfl
  | cons cell rest ih =>
    by_cases h : cell.1 = k
    · simp [h, ih]
    · have h' : ¬ k = cell.1 := fun e => h e.symm
      simp [h, ih, Memory.read, h']

theorem Memory.read_filter_other (cfg : Config) (m : List Host.Cell) {k j : Nat} (hj : j ≠ k) :
    Memory.read cfg (m.filter fun cell => cell.1 != k) j = Memory.read cfg m j := by
  induction m with
  | nil => rfl
  | cons cell rest ih =>
    by_cases h : cell.1 = k
    · simp [h, ih, Memory.read, hj]
    · simp [h, ih, Memory.read]

theorem Memory.read_insert_same (cfg : Config) (m : List Host.Cell) (k : Nat) (v : Byte)
    (h : ∀ cell ∈ m, cell.1 ≠ k) :
    Memory.read cfg (Memory.insert m k v) k = v := by
  induction m with
  | nil => simp [Memory.insert, Memory.read]
  | cons cell rest ih =>
    have hne : ¬ k = cell.1 := fun e => h cell (by simp) e.symm
    have := ih fun c hc => h c (by simp [hc])
    simp only [Memory.insert]
    split <;> simp [Memory.read, hne, this]

theorem Memory.read_insert_other (cfg : Config) (m : List Host.Cell) {k j : Nat} (v : Byte) (hj : j ≠ k) :
    Memory.read cfg (Memory.insert m k v) j = Memory.read cfg m j := by
  induction m with
  | nil => simp [Memory.insert, Memory.read, hj]
  | cons cell rest ih =>
    simp only [Memory.insert]
    split <;> simp [Memory.read, hj, ih]

/-- Read after write, in every list, canonical or not. -/
@[simp] theorem Memory.read_write_same (cfg : Config) (m : List Host.Cell) (k : Nat) (v : Byte) :
    Memory.read cfg (Memory.write cfg m k v) k = v := by
  simp only [Memory.write]
  split
  · rename_i h
    rw [Memory.read_filter_same, h]
  · exact Memory.read_insert_same _ _ _ _ (by simp)

/-- A write changes no other cell. -/
theorem Memory.read_write_other (cfg : Config) (m : List Host.Cell) {k j : Nat} (v : Byte) (hj : j ≠ k) :
    Memory.read cfg (Memory.write cfg m k v) j = Memory.read cfg m j := by
  simp only [Memory.write]
  split
  · exact Memory.read_filter_other cfg m hj
  · rw [Memory.read_insert_other _ _ _ hj, Memory.read_filter_other cfg m hj]

theorem Memory.wf_iff (cfg : Config) (m : List Host.Cell) : Memory.wf cfg m = true ↔
    (m.Pairwise fun a b => a.1 < b.1) ∧ ∀ cell ∈ m, cell.1 < 65536 ∧ cell.2 ≠ Memory.unlisted cfg := by
  simp [Memory.wf, List.all_eq_true]

theorem Memory.mem_insert {m : List Host.Cell} {k : Nat} {v : Byte} {cell : Host.Cell} :
    cell ∈ Memory.insert m k v ↔ cell = (k, v) ∨ cell ∈ m := by
  induction m with
  | nil => simp [Memory.insert]
  | cons c rest ih =>
    simp only [Memory.insert]
    split
    · simp
    · simp [ih]
      tauto

theorem Memory.pairwise_insert {m : List Host.Cell} {k : Nat} (v : Byte)
    (hm : m.Pairwise fun a b => a.1 < b.1) (hk : ∀ cell ∈ m, cell.1 ≠ k) :
    (Memory.insert m k v).Pairwise fun a b => a.1 < b.1 := by
  induction m with
  | nil => simp [Memory.insert]
  | cons c rest ih =>
    rw [List.pairwise_cons] at hm
    have hne := hk c (by simp)
    simp only [Memory.insert]
    split
    · rename_i hlt
      refine List.pairwise_cons.2 ⟨?_, List.pairwise_cons.2 hm⟩
      intro d hd
      rcases List.mem_cons.1 hd with rfl | hd
      · exact hlt
      · exact hlt.trans (hm.1 d hd)
    · rename_i hge
      refine List.pairwise_cons.2 ⟨?_, ih hm.2 fun d hd => hk d (by simp [hd])⟩
      intro d hd
      rcases Memory.mem_insert.1 hd with rfl | hd
      · exact lt_of_le_of_ne (not_lt.1 hge) hne
      · exact hm.1 d hd

/-- A write keeps the canonical form. -/
theorem Memory.wf_write {cfg : Config} {m : List Host.Cell} (hm : Memory.wf cfg m = true) {k : Nat}
    (hk : k < 65536) (v : Byte) :
    Memory.wf cfg (Memory.write cfg m k v) = true := by
  rw [Memory.wf_iff] at hm ⊢
  have hf : (m.filter fun cell => cell.1 != k).Pairwise fun a b => a.1 < b.1 := hm.1.filter _
  simp only [Memory.write]
  split
  · exact ⟨hf, fun cell hc => hm.2 cell (List.mem_of_mem_filter hc)⟩
  · rename_i hv
    refine ⟨Memory.pairwise_insert v hf (by simp), fun cell hc => ?_⟩
    rcases Memory.mem_insert.1 hc with rfl | hc
    · exact ⟨hk, hv⟩
    · exact hm.2 cell (List.mem_of_mem_filter hc)

theorem Memory.wf_nil (cfg : Config) : Memory.wf cfg [] = true := by simp [Memory.wf]

/-! ### The address decoder -/

/-- The region of an address holds it, and the index is the address less the base (R42). -/
theorem routeFixed_spec {a : Nat} (h : a < 65536) :
    (routeFixed a).1.base + (routeFixed a).2 = a ∧ (routeFixed a).2 < (routeFixed a).1.size := by
  unfold routeFixed
  repeat' split
  all_goals simp only [Region.base, Region.size]; omega

theorem cellKey_route_lt (cfg : Config) (a : Word) : cellKey (route cfg a) < 65536 := by
  have ha := a.isLt
  unfold route cellKey
  split
  · rw [(routeFixed_spec (by omega)).1]
    omega
  · rw [(routeFixed_spec ha).1]
    exact ha

/-- Without a mirror, a cell's key is its address. -/
theorem cellKey_route {cfg : Config} (h : cfg.echoMirror = false) (a : Word) :
    cellKey (route cfg a) = a.toNat := by
  simp only [cellKey, route, h, Bool.false_and]
  exact (routeFixed_spec a.isLt).1

@[simp] theorem cellKey_route_hardware (a : Word) : cellKey (route Config.hardware a) = a.toNat :=
  cellKey_route rfl a

theorem busRead_hardware (m : List Host.Cell) (a : Word) :
    busRead Config.hardware m a = Memory.read Config.hardware m a.toNat := by
  simp [busRead]

/-- `MemWrite` then `MemRead` of one address, under every configuration (R48). -/
@[simp] theorem busRead_busWrite_same (cfg : Config) (m : List Host.Cell) (a : Word) (v : Byte) :
    busRead cfg (busWrite cfg m a v) a = v := by
  simp [busRead, busWrite]

/-- Two addresses whose cells have one key are routed to one cell. -/
theorem route_eq_of_cellKey_eq {cfg : Config} {a b : Word} (h : cellKey (route cfg a) = cellKey (route cfg b)) :
    route cfg a = route cfg b := by
  have key : ∀ c : Word, ∃ n, n < 65536 ∧ route cfg c = routeFixed n := by
    intro c
    have := c.isLt
    unfold route
    split
    · exact ⟨_, by omega, rfl⟩
    · exact ⟨_, this, rfl⟩
  obtain ⟨x, hx, ea⟩ := key a
  obtain ⟨y, hy, eb⟩ := key b
  rw [ea, eb] at h ⊢
  have ex := (routeFixed_spec hx).1
  have ey := (routeFixed_spec hy).1
  simp only [cellKey] at h
  rw [show x = y by omega]

/-- An address routed to the cell written reads the value written, under every configuration (R48, R49). -/
theorem busRead_busWrite_of_route_eq (cfg : Config) (m : List Host.Cell) {a b : Word} (v : Byte)
    (h : route cfg b = route cfg a) : busRead cfg (busWrite cfg m a v) b = v := by
  simp [busRead, busWrite, h]

/-- An address routed to another cell reads as before, under every configuration (R48). -/
theorem busRead_busWrite_of_route_ne (cfg : Config) (m : List Host.Cell) {a b : Word} (v : Byte)
    (h : route cfg b ≠ route cfg a) : busRead cfg (busWrite cfg m a v) b = busRead cfg m b :=
  Memory.read_write_other cfg m v fun e => h (route_eq_of_cellKey_eq e)

/-- Without a mirror, addresses that differ are routed to cells that differ (R42). -/
theorem route_ne {cfg : Config} (hc : cfg.echoMirror = false) {a b : Word} (h : b ≠ a) :
    route cfg b ≠ route cfg a := by
  intro e
  have := congrArg cellKey e
  rw [cellKey_route hc, cellKey_route hc] at this
  exact h (BitVec.eq_of_toNat_eq this)

/-- A write of this hardware's bus leaves every other address as it was (R48). -/
theorem busRead_busWrite_other (m : List Host.Cell) {a b : Word} (v : Byte) (h : b ≠ a) :
    busRead Config.hardware (busWrite Config.hardware m a v) b = busRead Config.hardware m b :=
  busRead_busWrite_of_route_ne _ m v (route_ne rfl h)

/-- A bus write keeps the canonical form. -/
theorem wf_busWrite (cfg : Config) {m : List Host.Cell} (hm : Memory.wf cfg m = true) (a : Word) (v : Byte) :
    Memory.wf cfg (busWrite cfg m a v) = true :=
  Memory.wf_write hm (cellKey_route_lt cfg a) v

/-- Every address of a memory with nothing listed reads `cfg.MEM_RESET` (R31). -/
@[simp] theorem busRead_nil (cfg : Config) (a : Word) : busRead cfg [] a = cfg.memReset := rfl

/-! ### The frame buffer -/

@[simp] theorem FrameBuffer.pixel_setPixel_same (fb : FrameBuffer) (x : Fin 160) (y : Fin 144) (c : Color) :
    FrameBuffer.pixel (FrameBuffer.setPixel fb x y c) x y = c := by
  simp [FrameBuffer.pixel, FrameBuffer.setPixel, Vector.get_eq_getElem]

theorem FrameBuffer.pixel_setPixel_other (fb : FrameBuffer) {x x' : Fin 160} {y y' : Fin 144} (c : Color)
    (h : x' ≠ x ∨ y' ≠ y) :
    FrameBuffer.pixel (FrameBuffer.setPixel fb x y c) x' y' = FrameBuffer.pixel fb x' y' := by
  simp only [FrameBuffer.pixel, FrameBuffer.setPixel, Vector.get_eq_getElem, Vector.getElem_set]
  by_cases hy : y.val = y'.val
  · have hx : x.val ≠ x'.val := fun e => h.elim (fun hx => hx (Fin.ext e.symm)) fun hy' => hy' (Fin.ext hy.symm)
    simp [hy, hx]
  · simp [hy]

@[simp] theorem FrameBuffer.pixel_fill (f : Fin 160 → Fin 144 → Color) (x : Fin 160) (y : Fin 144) :
    FrameBuffer.pixel (FrameBuffer.fill f) x y = f x y := by
  simp [FrameBuffer.pixel, FrameBuffer.fill, Vector.get_eq_getElem]

end Sys2Proof.Machine
end

