-- ==== Sys2Proof/Laws/State.lean ====
section
/-! SUPPORT. What each named update of the state leaves in each field. -/

namespace Sys2Proof.Machine

/-! ### `respond` -/

@[simp] theorem State.respond_A (s : State) (d : Data) : (s.respond d).A = s.A := rfl
@[simp] theorem State.respond_F (s : State) (d : Data) : (s.respond d).F = s.F := rfl
@[simp] theorem State.respond_B (s : State) (d : Data) : (s.respond d).B = s.B := rfl
@[simp] theorem State.respond_C (s : State) (d : Data) : (s.respond d).C = s.C := rfl
@[simp] theorem State.respond_D (s : State) (d : Data) : (s.respond d).D = s.D := rfl
@[simp] theorem State.respond_E (s : State) (d : Data) : (s.respond d).E = s.E := rfl
@[simp] theorem State.respond_H (s : State) (d : Data) : (s.respond d).H = s.H := rfl
@[simp] theorem State.respond_L (s : State) (d : Data) : (s.respond d).L = s.L := rfl
@[simp] theorem State.respond_SP (s : State) (d : Data) : (s.respond d).SP = s.SP := rfl
@[simp] theorem State.respond_PC (s : State) (d : Data) : (s.respond d).PC = s.PC := rfl
@[simp] theorem State.respond_IME (s : State) (d : Data) : (s.respond d).IME = s.IME := rfl
@[simp] theorem State.respond_HW (s : State) (d : Data) : (s.respond d).HW = s.HW := rfl
@[simp] theorem State.respond_mem (s : State) (d : Data) : (s.respond d).mem = s.mem := rfl
@[simp] theorem State.respond_fb (s : State) (d : Data) : (s.respond d).fb = s.fb := rfl
@[simp] theorem State.respond_aborted (s : State) (d : Data) : (s.respond d).aborted = s.aborted := rfl
@[simp] theorem State.respond_port (s : State) (d : Data) : (s.respond d).port = s.port := rfl
@[simp] theorem State.respond_response (s : State) (d : Data) : (s.respond d).response = some (.ok d) := rfl

/-! ### `abort` -/

@[simp] theorem State.abort_A (s : State) (c : Cause) : (s.abort c).A = s.A := rfl
@[simp] theorem State.abort_F (s : State) (c : Cause) : (s.abort c).F = s.F := rfl
@[simp] theorem State.abort_B (s : State) (c : Cause) : (s.abort c).B = s.B := rfl
@[simp] theorem State.abort_C (s : State) (c : Cause) : (s.abort c).C = s.C := rfl
@[simp] theorem State.abort_D (s : State) (c : Cause) : (s.abort c).D = s.D := rfl
@[simp] theorem State.abort_E (s : State) (c : Cause) : (s.abort c).E = s.E := rfl
@[simp] theorem State.abort_H (s : State) (c : Cause) : (s.abort c).H = s.H := rfl
@[simp] theorem State.abort_L (s : State) (c : Cause) : (s.abort c).L = s.L := rfl
@[simp] theorem State.abort_SP (s : State) (c : Cause) : (s.abort c).SP = s.SP := rfl
@[simp] theorem State.abort_PC (s : State) (c : Cause) : (s.abort c).PC = s.PC := rfl
@[simp] theorem State.abort_IME (s : State) (c : Cause) : (s.abort c).IME = s.IME := rfl
@[simp] theorem State.abort_HW (s : State) (c : Cause) : (s.abort c).HW = s.HW := rfl
@[simp] theorem State.abort_mem (s : State) (c : Cause) : (s.abort c).mem = s.mem := rfl
@[simp] theorem State.abort_fb (s : State) (c : Cause) : (s.abort c).fb = s.fb := rfl
@[simp] theorem State.abort_aborted (s : State) (c : Cause) : (s.abort c).aborted = some c := rfl
@[simp] theorem State.abort_port (s : State) (c : Cause) : (s.abort c).port = s.port := rfl
@[simp] theorem State.abort_response (s : State) (c : Cause) : (s.abort c).response = some (.abort c) := rfl

/-! ### `present` -/

@[simp] theorem State.present_A (s : State) (w : CmdWord) (p : Payload) : (s.present w p).A = s.A := rfl
@[simp] theorem State.present_F (s : State) (w : CmdWord) (p : Payload) : (s.present w p).F = s.F := rfl
@[simp] theorem State.present_B (s : State) (w : CmdWord) (p : Payload) : (s.present w p).B = s.B := rfl
@[simp] theorem State.present_C (s : State) (w : CmdWord) (p : Payload) : (s.present w p).C = s.C := rfl
@[simp] theorem State.present_D (s : State) (w : CmdWord) (p : Payload) : (s.present w p).D = s.D := rfl
@[simp] theorem State.present_E (s : State) (w : CmdWord) (p : Payload) : (s.present w p).E = s.E := rfl
@[simp] theorem State.present_H (s : State) (w : CmdWord) (p : Payload) : (s.present w p).H = s.H := rfl
@[simp] theorem State.present_L (s : State) (w : CmdWord) (p : Payload) : (s.present w p).L = s.L := rfl
@[simp] theorem State.present_SP (s : State) (w : CmdWord) (p : Payload) : (s.present w p).SP = s.SP := rfl
@[simp] theorem State.present_PC (s : State) (w : CmdWord) (p : Payload) : (s.present w p).PC = s.PC := rfl
@[simp] theorem State.present_IME (s : State) (w : CmdWord) (p : Payload) : (s.present w p).IME = s.IME := rfl
@[simp] theorem State.present_HW (s : State) (w : CmdWord) (p : Payload) : (s.present w p).HW = s.HW := rfl
@[simp] theorem State.present_mem (s : State) (w : CmdWord) (p : Payload) : (s.present w p).mem = s.mem := rfl
@[simp] theorem State.present_fb (s : State) (w : CmdWord) (p : Payload) : (s.present w p).fb = s.fb := rfl
@[simp] theorem State.present_aborted (s : State) (w : CmdWord) (p : Payload) : (s.present w p).aborted = s.aborted := rfl
@[simp] theorem State.present_port (s : State) (w : CmdWord) (p : Payload) : (s.present w p).port = .command w p :: s.port := rfl
@[simp] theorem State.present_response (s : State) (w : CmdWord) (p : Payload) : (s.present w p).response = s.response := rfl

/-! ### `stepL` -/

@[simp] theorem State.stepL_A (s : State) (m : Mode) : (s.stepL m).A = s.A := by
  cases m <;> rfl
@[simp] theorem State.stepL_F (s : State) (m : Mode) : (s.stepL m).F = s.F := by
  cases m <;> rfl
@[simp] theorem State.stepL_B (s : State) (m : Mode) : (s.stepL m).B = s.B := by
  cases m <;> rfl
@[simp] theorem State.stepL_C (s : State) (m : Mode) : (s.stepL m).C = s.C := by
  cases m <;> rfl
@[simp] theorem State.stepL_D (s : State) (m : Mode) : (s.stepL m).D = s.D := by
  cases m <;> rfl
@[simp] theorem State.stepL_E (s : State) (m : Mode) : (s.stepL m).E = s.E := by
  cases m <;> rfl
@[simp] theorem State.stepL_H (s : State) (m : Mode) : (s.stepL m).H = s.H := by
  cases m <;> rfl
@[simp] theorem State.stepL_SP (s : State) (m : Mode) : (s.stepL m).SP = s.SP := by
  cases m <;> rfl
@[simp] theorem State.stepL_PC (s : State) (m : Mode) : (s.stepL m).PC = s.PC := by
  cases m <;> rfl
@[simp] theorem State.stepL_IME (s : State) (m : Mode) : (s.stepL m).IME = s.IME := by
  cases m <;> rfl
@[simp] theorem State.stepL_HW (s : State) (m : Mode) : (s.stepL m).HW = s.HW := by
  cases m <;> rfl
@[simp] theorem State.stepL_mem (s : State) (m : Mode) : (s.stepL m).mem = s.mem := by
  cases m <;> rfl
@[simp] theorem State.stepL_fb (s : State) (m : Mode) : (s.stepL m).fb = s.fb := by
  cases m <;> rfl
@[simp] theorem State.stepL_aborted (s : State) (m : Mode) : (s.stepL m).aborted = s.aborted := by
  cases m <;> rfl
@[simp] theorem State.stepL_port (s : State) (m : Mode) : (s.stepL m).port = s.port := by
  cases m <;> rfl
@[simp] theorem State.stepL_response (s : State) (m : Mode) : (s.stepL m).response = s.response := by
  cases m <;> rfl

/-! ### `set8` -/

@[simp] theorem State.set8_SP (s : State) (r : Reg8) (v : Byte) : (s.set8 r v).SP = s.SP := by
  cases r <;> rfl
@[simp] theorem State.set8_PC (s : State) (r : Reg8) (v : Byte) : (s.set8 r v).PC = s.PC := by
  cases r <;> rfl
@[simp] theorem State.set8_IME (s : State) (r : Reg8) (v : Byte) : (s.set8 r v).IME = s.IME := by
  cases r <;> rfl
@[simp] theorem State.set8_HW (s : State) (r : Reg8) (v : Byte) : (s.set8 r v).HW = s.HW := by
  cases r <;> rfl
@[simp] theorem State.set8_mem (s : State) (r : Reg8) (v : Byte) : (s.set8 r v).mem = s.mem := by
  cases r <;> rfl
@[simp] theorem State.set8_fb (s : State) (r : Reg8) (v : Byte) : (s.set8 r v).fb = s.fb := by
  cases r <;> rfl
@[simp] theorem State.set8_aborted (s : State) (r : Reg8) (v : Byte) : (s.set8 r v).aborted = s.aborted := by
  cases r <;> rfl
@[simp] theorem State.set8_port (s : State) (r : Reg8) (v : Byte) : (s.set8 r v).port = s.port := by
  cases r <;> rfl
@[simp] theorem State.set8_response (s : State) (r : Reg8) (v : Byte) : (s.set8 r v).response = s.response := by
  cases r <;> rfl

/-! ### `set16` -/

@[simp] theorem State.set16_IME (s : State) (r : Reg16) (v : Word) : (s.set16 r v).IME = s.IME := by
  cases r <;> rfl
@[simp] theorem State.set16_HW (s : State) (r : Reg16) (v : Word) : (s.set16 r v).HW = s.HW := by
  cases r <;> rfl
@[simp] theorem State.set16_mem (s : State) (r : Reg16) (v : Word) : (s.set16 r v).mem = s.mem := by
  cases r <;> rfl
@[simp] theorem State.set16_fb (s : State) (r : Reg16) (v : Word) : (s.set16 r v).fb = s.fb := by
  cases r <;> rfl
@[simp] theorem State.set16_aborted (s : State) (r : Reg16) (v : Word) : (s.set16 r v).aborted = s.aborted := by
  cases r <;> rfl
@[simp] theorem State.set16_port (s : State) (r : Reg16) (v : Word) : (s.set16 r v).port = s.port := by
  cases r <;> rfl
@[simp] theorem State.set16_response (s : State) (r : Reg16) (v : Word) : (s.set16 r v).response = s.response := by
  cases r <;> rfl

/-! ### `resetWith` and `powerOn` -/

@[simp] theorem State.resetWith_A (cfg : Config) : (State.resetWith cfg).A = 0 := rfl
@[simp] theorem State.resetWith_F (cfg : Config) : (State.resetWith cfg).F = 0 := rfl
@[simp] theorem State.resetWith_B (cfg : Config) : (State.resetWith cfg).B = 0 := rfl
@[simp] theorem State.resetWith_C (cfg : Config) : (State.resetWith cfg).C = 0 := rfl
@[simp] theorem State.resetWith_D (cfg : Config) : (State.resetWith cfg).D = 0 := rfl
@[simp] theorem State.resetWith_E (cfg : Config) : (State.resetWith cfg).E = 0 := rfl
@[simp] theorem State.resetWith_H (cfg : Config) : (State.resetWith cfg).H = 0 := rfl
@[simp] theorem State.resetWith_L (cfg : Config) : (State.resetWith cfg).L = 0 := rfl
@[simp] theorem State.resetWith_SP (cfg : Config) : (State.resetWith cfg).SP = 0 := rfl
@[simp] theorem State.resetWith_PC (cfg : Config) : (State.resetWith cfg).PC = 0 := rfl
@[simp] theorem State.resetWith_IME (cfg : Config) : (State.resetWith cfg).IME = false := rfl
@[simp] theorem State.resetWith_HW (cfg : Config) : (State.resetWith cfg).HW = false := rfl
@[simp] theorem State.resetWith_mem (cfg : Config) : (State.resetWith cfg).mem = [] := rfl
@[simp] theorem State.resetWith_fb (cfg : Config) :
    (State.resetWith cfg).fb = Vector.replicate 144 (Vector.replicate 160 cfg.fbReset) := rfl
@[simp] theorem State.resetWith_aborted (cfg : Config) : (State.resetWith cfg).aborted = none := rfl
@[simp] theorem State.resetWith_port (cfg : Config) : (State.resetWith cfg).port = [] := rfl
@[simp] theorem State.resetWith_response (cfg : Config) : (State.resetWith cfg).response = none := rfl
@[simp] theorem State.powerOn_A (cfg : Config) (r : List PortInput) : (State.powerOn cfg r).A = 0 := rfl
@[simp] theorem State.powerOn_F (cfg : Config) (r : List PortInput) : (State.powerOn cfg r).F = 0 := rfl
@[simp] theorem State.powerOn_B (cfg : Config) (r : List PortInput) : (State.powerOn cfg r).B = 0 := rfl
@[simp] theorem State.powerOn_C (cfg : Config) (r : List PortInput) : (State.powerOn cfg r).C = 0 := rfl
@[simp] theorem State.powerOn_D (cfg : Config) (r : List PortInput) : (State.powerOn cfg r).D = 0 := rfl
@[simp] theorem State.powerOn_E (cfg : Config) (r : List PortInput) : (State.powerOn cfg r).E = 0 := rfl
@[simp] theorem State.powerOn_H (cfg : Config) (r : List PortInput) : (State.powerOn cfg r).H = 0 := rfl
@[simp] theorem State.powerOn_L (cfg : Config) (r : List PortInput) : (State.powerOn cfg r).L = 0 := rfl
@[simp] theorem State.powerOn_SP (cfg : Config) (r : List PortInput) : (State.powerOn cfg r).SP = 0 := rfl
@[simp] theorem State.powerOn_PC (cfg : Config) (r : List PortInput) : (State.powerOn cfg r).PC = 0 := rfl
@[simp] theorem State.powerOn_IME (cfg : Config) (r : List PortInput) : (State.powerOn cfg r).IME = false := rfl
@[simp] theorem State.powerOn_HW (cfg : Config) (r : List PortInput) : (State.powerOn cfg r).HW = false := rfl
@[simp] theorem State.powerOn_mem (cfg : Config) (r : List PortInput) : (State.powerOn cfg r).mem = [] := rfl
@[simp] theorem State.powerOn_aborted (cfg : Config) (r : List PortInput) : (State.powerOn cfg r).aborted = none := rfl
@[simp] theorem State.powerOn_response (cfg : Config) (r : List PortInput) : (State.powerOn cfg r).response = none := rfl
@[simp] theorem State.powerOn_fb (cfg : Config) (r : List PortInput) :
    (State.powerOn cfg r).fb = Vector.replicate 144 (Vector.replicate 160 cfg.fbReset) := rfl
@[simp] theorem State.powerOn_port (cfg : Config) (r : List PortInput) : (State.powerOn cfg r).port = r := rfl

end Sys2Proof.Machine
end

