-- ==== Sys2Proof/Laws/Commands.lean ====
section
/-! SUPPORT. What the shared operations answer: the operand checks, the end of a command, and, once for all 22
commands, everything a command can do to the state. -/

namespace Sys2Proof.Machine

/-! ### Operand checks -/

@[simp] theorem checkSel8_r8 (r : Reg8) : checkSel8 (.r8 r) = .ok r := rfl
@[simp] theorem checkSel8_r16 (r : Reg16) : checkSel8 (.r16 r) = .error .wrongWidth := rfl
@[simp] theorem checkSel8_reserved14 : checkSel8 .reserved14 = .error .reservedEncoding := rfl
@[simp] theorem checkSel8_reserved15 : checkSel8 .reserved15 = .error .reservedEncoding := rfl
@[simp] theorem checkSel16_r16 (r : Reg16) : checkSel16 (.r16 r) = .ok r := rfl
@[simp] theorem checkSel16_r8 (r : Reg8) : checkSel16 (.r8 r) = .error .wrongWidth := rfl
@[simp] theorem checkSel16_reserved14 : checkSel16 .reserved14 = .error .reservedEncoding := rfl
@[simp] theorem checkSel16_reserved15 : checkSel16 .reserved15 = .error .reservedEncoding := rfl
@[simp] theorem checkMode_normal (r : Reg16) : checkMode r .normal = .ok .normal := rfl
@[simp] theorem checkMode_reserved (r : Reg16) : checkMode r .reserved = .error .reservedEncoding := rfl
@[simp] theorem checkMode_increment (r : Reg16) :
    checkMode r .increment = if r = .HL then .ok .increment else .error .reservedEncoding := rfl
@[simp] theorem checkMode_decrement (r : Reg16) :
    checkMode r .decrement = if r = .HL then .ok .decrement else .error .reservedEncoding := rfl

theorem checkTileId_ok {id : Word} (h : id.toNat ≤ 255) : checkTileId id = .ok (id.setWidth 8) := by
  simp [checkTileId, h]

theorem checkTileId_error {id : Word} (h : 255 < id.toNat) : checkTileId id = .error .tileIndexRange := by
  simp [checkTileId, h]

theorem checkPixel_ok {x y : Byte} (hx : x.toNat < 160) (hy : y.toNat < 144) :
    checkPixel x y = .ok (⟨x.toNat, hx⟩, ⟨y.toNat, hy⟩) := by
  simp [checkPixel, hx, hy]

theorem checkPixel_error {x y : Byte} (h : 160 ≤ x.toNat ∨ 144 ≤ y.toNat) :
    checkPixel x y = .error .displayBounds := by
  have : ¬ (x.toNat < 160 ∧ y.toNat < 144) := by omega
  simp [checkPixel, this]

/-! ### The end of a command -/

@[simp] theorem complete_ok (s s' : State) (d : Data) : complete s (.ok (s', d)) = .next (s'.respond d) := rfl

@[simp] theorem complete_error (s : State) (c : Cause) : complete s (.error c) = .next (s.abort c) := rfl

@[simp] theorem checked_ok {α : Type} (a : α) (rest : α → Except Cause (State × Data)) :
    checked (.ok a) rest = rest a := rfl

@[simp] theorem checked_error {α : Type} (c : Cause) (rest : α → Except Cause (State × Data)) :
    checked (.error c) rest = .error c := rfl

/-- A command that completes responds in its new state, or aborts in the old one. -/
theorem complete_cases {s t : State} {result : Except Cause (State × Data)} (h : complete s result = .next t) :
    (∃ s' d, result = .ok (s', d) ∧ t = s'.respond d) ∨ (∃ c, result = .error c ∧ t = s.abort c) := by
  cases result with
  | ok p => exact .inl ⟨p.1, p.2, rfl, by simpa [complete] using h.symm⟩
  | error c => exact .inr ⟨c, rfl, by simpa [complete] using h.symm⟩

/-- Every end of a command is a next state. -/
theorem complete_next (s : State) (result : Except Cause (State × Data)) : ∃ t, complete s result = .next t := by
  cases result with
  | ok p => exact ⟨_, rfl⟩
  | error c => exact ⟨_, rfl⟩

/-! ### This hardware is the block at the defaults -/

/-- Every command is the configured command at the defaults of R2. -/
theorem exec_eq_execWith (i : Instr) (s : State) : exec i s = execWith Config.hardware i s := by
  cases i <;> rfl

/-! ### The commands without checks -/

theorem exec_fget (s : State) (flag : Flag) :
    exec (.fget flag) s = .next (s.respond (.bit (flagOf s.F flag))) := rfl

theorem exec_fset (s : State) (flag : Flag) (b : Bool) :
    exec (.fset flag b) s = .next (State.respond { s with F := withFlag s.F flag b } .none) := rfl

theorem exec_imeget (s : State) :
    exec .imeget s = .next (s.respond (.bit s.IME)) := rfl

theorem exec_imeset (s : State) (b : Bool) :
    exec (.imeset b) s = .next (State.respond { s with IME := b } .none) := rfl

theorem exec_hwget (s : State) :
    exec .hwget s = .next (s.respond (.bit s.HW)) := rfl

theorem exec_hwset (s : State) (b : Bool) :
    exec (.hwset b) s = .next (State.respond { s with HW := b } .none) := rfl

theorem exec_icls (s : State) (v : Byte) :
    exec (.icls v) s = .next (s.respond (.lines (classify v).pack)) := rfl

theorem exec_intq (s : State) :
    exec .intq s = .next (s.respond (.linePair (interruptQuery Config.hardware s.mem))) := rfl

theorem exec_brd (s : State) (addr : Word) :
    exec (.brd addr) s = .next (s.respond (.byte (s.byteAt addr))) := rfl

theorem exec_bwr (s : State) (addr : Word) (data : Byte) :
    exec (.bwr addr data) s =
      .next (State.respond { s with mem := busWrite Config.hardware s.mem addr data } .none) := rfl

theorem exec_ldt (s : State) :
    exec .ldt s = .next (s.respond (tileList Config.hardware s.mem)) := rfl

theorem exec_tln (s : State) (lo hi : Byte) :
    exec (.tln lo hi) s = .next (s.respond (.tileLine (packLine (decodeLine lo hi)))) := rfl

theorem exec_til (s : State) (payload : Payload) :
    exec (.til payload) s = .next (s.respond (.tile (packTile (decodeTile (payloadBytes payload))))) := rfl

theorem exec_dupd (s : State) :
    exec .dupd s = .next (State.respond { s with fb := frameOf Config.hardware s.mem } .none) := rfl

theorem exec_bgw (s : State) :
    exec .bgw s = .next (s.respond (.window (windowOf Config.hardware s.mem))) := rfl

/-! ### The commands that read a parameter, under every configuration -/

theorem execWith_intq (cfg : Config) (s : State) :
    execWith cfg .intq s = .next (s.respond (.linePair (interruptQuery cfg s.mem))) := rfl

theorem execWith_brd (cfg : Config) (s : State) (addr : Word) :
    execWith cfg (.brd addr) s = .next (s.respond (.byte (busRead cfg s.mem addr))) := rfl

theorem execWith_bwr (cfg : Config) (s : State) (addr : Word) (data : Byte) :
    execWith cfg (.bwr addr data) s =
      .next (State.respond { s with mem := busWrite cfg s.mem addr data } .none) := rfl

theorem execWith_ldt (cfg : Config) (s : State) :
    execWith cfg .ldt s = .next (s.respond (tileList cfg s.mem)) := rfl

theorem execWith_tget (cfg : Config) (s : State) {id : Word} (h : id.toNat ≤ 255) :
    execWith cfg (.tget id) s =
      .next (s.respond (.tile (packTile (tileAt cfg s.mem (id.setWidth 8) (busRead cfg s.mem cfg.addrLCDC))))) := by
  simp [execWith, execTgetWith, checkTileId_ok h]

theorem execWith_dupd (cfg : Config) (s : State) :
    execWith cfg .dupd s = .next (State.respond { s with fb := frameOf cfg s.mem } .none) := rfl

theorem execWith_bgw (cfg : Config) (s : State) :
    execWith cfg .bgw s = .next (s.respond (.window (windowOf cfg s.mem))) := rfl

/-! ### Everything a command can do -/

/-- The state before the response: what command `i` of the block with configuration `cfg` may have written. -/
inductive Effect (cfg : Config) (s : State) : Instr → State → Prop where
  | read (i : Instr) : Effect cfg s i s
  | wr8 (r : Reg8) (v : Byte) : Effect cfg s (.wr8 (.r8 r) v) (s.set8 r v)
  | stepL (m : Mode) : Effect cfg s (.rd16 (.r16 .HL) m) (s.stepL m)
  | wr16 (r : Reg16) (v : Word) : Effect cfg s (.wr16 (.r16 r) v) (s.set16 r v)
  | fset (f : Flag) (b : Bool) : Effect cfg s (.fset f b) { s with F := withFlag s.F f b }
  | imeset (b : Bool) : Effect cfg s (.imeset b) { s with IME := b }
  | hwset (b : Bool) : Effect cfg s (.hwset b) { s with HW := b }
  | bwr (a : Word) (v : Byte) : Effect cfg s (.bwr a v) { s with mem := busWrite cfg s.mem a v }
  | dset (c : Color) (x y : Byte) (p : Fin 160 × Fin 144) :
      Effect cfg s (.dset c x y) { s with fb := FrameBuffer.setPixel s.fb p.1 p.2 c }
  | dupd : Effect cfg s .dupd { s with fb := frameOf cfg s.mem }

/-- The one inversion of `execWith`: a command aborts from the state before it, or responds after its effect. -/
theorem execWith_cases {cfg : Config} {i : Instr} {s t : State} (h : execWith cfg i s = .next t) :
    (∃ c, c ≠ .regionRange ∧ t = s.abort c) ∨ (∃ s' d, Effect cfg s i s' ∧ t = s'.respond d) := by
  cases i with
  | rd8 reg =>
    cases reg <;> simp [execWith, execRd8] at h <;> subst h
    · exact .inr ⟨_, _, .read _, rfl⟩
    all_goals exact .inl ⟨_, by decide, rfl⟩
  | wr8 reg v =>
    cases reg <;> simp [execWith, execWr8] at h <;> subst h
    · exact .inr ⟨_, _, .wr8 _ v, rfl⟩
    all_goals exact .inl ⟨_, by decide, rfl⟩
  | rd16 reg mode =>
    rcases reg with r | r | _ | _
    · exact .inl ⟨.wrongWidth, by decide, by simpa [execWith, execRd16] using h.symm⟩
    · by_cases hr : r = .HL
      · subst hr
        cases mode <;> simp [execWith, execRd16] at h <;> subst h
        · exact .inr ⟨_, _, .stepL .normal, rfl⟩
        · exact .inr ⟨_, _, .stepL .increment, rfl⟩
        · exact .inr ⟨_, _, .stepL .decrement, rfl⟩
        · exact .inl ⟨_, by decide, rfl⟩
      · cases mode <;> simp [execWith, execRd16, hr] at h <;> subst h
        · exact .inr ⟨_, _, .read _, rfl⟩
        all_goals exact .inl ⟨_, by decide, rfl⟩
    · exact .inl ⟨.reservedEncoding, by decide, by simpa [execWith, execRd16] using h.symm⟩
    · exact .inl ⟨.reservedEncoding, by decide, by simpa [execWith, execRd16] using h.symm⟩
  | wr16 reg v =>
    cases reg <;> simp [execWith, execWr16] at h <;> subst h
    · exact .inl ⟨_, by decide, rfl⟩
    · exact .inr ⟨_, _, .wr16 _ v, rfl⟩
    all_goals exact .inl ⟨_, by decide, rfl⟩
  | fget flag => exact .inr ⟨_, _, .read _, by simpa [execWith, execFget] using h.symm⟩
  | fset flag b => exact .inr ⟨_, _, .fset flag b, by simpa [execWith, execFset] using h.symm⟩
  | imeget => exact .inr ⟨_, _, .read _, by simpa [execWith, execImeget] using h.symm⟩
  | imeset b => exact .inr ⟨_, _, .imeset b, by simpa [execWith, execImeset] using h.symm⟩
  | hwget => exact .inr ⟨_, _, .read _, by simpa [execWith, execHwget] using h.symm⟩
  | hwset b => exact .inr ⟨_, _, .hwset b, by simpa [execWith, execHwset] using h.symm⟩
  | icls v => exact .inr ⟨_, _, .read _, by simpa [execWith, execIcls] using h.symm⟩
  | intq => exact .inr ⟨_, _, .read _, by simpa [execWith_intq] using h.symm⟩
  | brd addr => exact .inr ⟨_, _, .read _, by simpa [execWith_brd] using h.symm⟩
  | bwr addr data => exact .inr ⟨_, _, .bwr addr data, by simpa [execWith_bwr] using h.symm⟩
  | ldt => exact .inr ⟨_, _, .read _, by simpa [execWith_ldt] using h.symm⟩
  | tget id =>
    by_cases hid : id.toNat ≤ 255
    · simp only [execWith, execTgetWith, checkTileId_ok hid] at h
      exact .inr ⟨_, _, .read _, (Host.Outcome.next.inj h).symm⟩
    · simp only [execWith, execTgetWith, checkTileId_error (not_le.1 hid)] at h
      exact .inl ⟨.tileIndexRange, by decide, (Host.Outcome.next.inj h).symm⟩
  | tln lo hi => exact .inr ⟨_, _, .read _, by simpa [execWith, execTln] using h.symm⟩
  | til payload => exact .inr ⟨_, _, .read _, by simpa [execWith, execTil] using h.symm⟩
  | dset color x y =>
    by_cases hxy : x.toNat < 160 ∧ y.toNat < 144
    · simp only [execWith, execDset, checkPixel_ok hxy.1 hxy.2] at h
      exact .inr ⟨_, _, .dset color x y _, (Host.Outcome.next.inj h).symm⟩
    · simp only [execWith, execDset, checkPixel_error (show 160 ≤ x.toNat ∨ 144 ≤ y.toNat by omega)] at h
      exact .inl ⟨.displayBounds, by decide, (Host.Outcome.next.inj h).symm⟩
  | dget x y =>
    by_cases hxy : x.toNat < 160 ∧ y.toNat < 144
    · simp only [execWith, execDget, checkPixel_ok hxy.1 hxy.2] at h
      exact .inr ⟨_, _, .read _, (Host.Outcome.next.inj h).symm⟩
    · simp only [execWith, execDget, checkPixel_error (show 160 ≤ x.toNat ∨ 144 ≤ y.toNat by omega)] at h
      exact .inl ⟨.displayBounds, by decide, (Host.Outcome.next.inj h).symm⟩
  | dupd => exact .inr ⟨_, _, .dupd, by simpa [execWith_dupd] using h.symm⟩
  | bgw => exact .inr ⟨_, _, .read _, by simpa [execWith_bgw] using h.symm⟩

/-- Every command answers a next state. -/
theorem execWith_next (cfg : Config) (i : Instr) (s : State) : ∃ t, execWith cfg i s = .next t := by
  cases i with
  | rd8 reg => exact complete_next _ _
  | wr8 reg v => exact complete_next _ _
  | rd16 reg mode => exact complete_next _ _
  | wr16 reg v => exact complete_next _ _
  | fget flag => exact ⟨_, rfl⟩
  | fset flag b => exact ⟨_, rfl⟩
  | imeget => exact ⟨_, rfl⟩
  | imeset b => exact ⟨_, rfl⟩
  | hwget => exact ⟨_, rfl⟩
  | hwset b => exact ⟨_, rfl⟩
  | icls v => exact ⟨_, rfl⟩
  | intq => exact ⟨_, rfl⟩
  | brd addr => exact ⟨_, rfl⟩
  | bwr addr data => exact ⟨_, rfl⟩
  | ldt => exact ⟨_, rfl⟩
  | tget id => exact complete_next _ _
  | tln lo hi => exact ⟨_, rfl⟩
  | til payload => exact ⟨_, rfl⟩
  | dset color x y => exact complete_next _ _
  | dget x y => exact complete_next _ _
  | dupd => exact ⟨_, rfl⟩
  | bgw => exact ⟨_, rfl⟩

/-- The inversion of `exec`. -/
theorem exec_cases {i : Instr} {s t : State} (h : exec i s = .next t) :
    (∃ c, c ≠ .regionRange ∧ t = s.abort c) ∨ (∃ s' d, Effect Config.hardware s i s' ∧ t = s'.respond d) :=
  execWith_cases (exec_eq_execWith i s ▸ h)

/-- Every command of this hardware answers a next state. -/
theorem exec_next (i : Instr) (s : State) : ∃ t, exec i s = .next t :=
  exec_eq_execWith i s ▸ execWith_next Config.hardware i s

/-! ### The step -/

@[simp] theorem finish_run (f : Instr → State → Host.Outcome State Fault Refusal) (i : Instr) (s : State) :
    finish f (.run i s) = f i s := rfl
@[simp] theorem finish_done (f : Instr → State → Host.Outcome State Fault Refusal) (s : State) :
    finish f (.done s) = .next s := rfl
@[simp] theorem finish_stuck (f : Instr → State → Host.Outcome State Fault Refusal) (r : Fault) :
    finish f (.stuck r) = .fault r := rfl

/-- Everything the port can do with the input presented. -/
theorem accept_cases (cfg : Config) (s : State) :
    (∃ rest, s.port = .reset :: rest ∧ accept cfg s = .done (State.powerOn cfg rest)) ∨
    (∃ c, s.aborted = some c ∧ (∀ rest, s.port ≠ .reset :: rest) ∧ accept cfg s = .stuck (.blockDead c)) ∨
    (s.aborted = none ∧ s.port = [] ∧ accept cfg s = .done s) ∨
    (∃ w p rest i, s.aborted = none ∧ s.port = .command w p :: rest ∧ decode w p = .ok i ∧
      accept cfg s = .run i { s with port := rest }) ∨
    (∃ w p rest e, s.aborted = none ∧ s.port = .command w p :: rest ∧ decode w p = .error e ∧
      accept cfg s = .done (State.abort { s with port := rest } .reservedEncoding)) := by
  rcases hp : s.port with _ | ⟨⟨w, p⟩ | _, rest⟩
  · rcases ha : s.aborted with _ | c
    · exact .inr (.inr (.inl ⟨rfl, rfl, by simp [accept, hp, ha]⟩))
    · exact .inr (.inl ⟨c, rfl, by simp, by simp [accept, hp, ha]⟩)
  · rcases ha : s.aborted with _ | c
    · rcases hd : decode w p with e | i
      · exact .inr (.inr (.inr (.inr ⟨w, p, rest, e, rfl, rfl, hd, by simp [accept, hp, ha, hd]⟩)))
      · exact .inr (.inr (.inr (.inl ⟨w, p, rest, i, rfl, rfl, hd, by simp [accept, hp, ha, hd]⟩)))
    · exact .inr (.inl ⟨c, rfl, by simp, by simp [accept, hp, ha]⟩)
  · exact .inl ⟨rest, rfl, by simp [accept, hp]⟩

end Sys2Proof.Machine
end

