-- ==== Sys2Proof/Laws/Config.lean ====
section
/-! SUPPORT. The parameters of this hardware, one by one, so that no proof unfolds the record. -/

namespace Sys2Proof

@[simp] theorem Config.hardware_addrIE : Config.hardware.addrIE = 0xFFFF := rfl
@[simp] theorem Config.hardware_addrIF : Config.hardware.addrIF = 0xFF0F := rfl
@[simp] theorem Config.hardware_addrLCDC : Config.hardware.addrLCDC = 0xFF40 := rfl
@[simp] theorem Config.hardware_addrSCY : Config.hardware.addrSCY = 0xFF42 := rfl
@[simp] theorem Config.hardware_addrSCX : Config.hardware.addrSCX = 0xFF43 := rfl
@[simp] theorem Config.hardware_lcdcTileDataBit : Config.hardware.lcdcTileDataBit = 4 := rfl
@[simp] theorem Config.hardware_lcdcBgMapBit : Config.hardware.lcdcBgMapBit = 3 := rfl
@[simp] theorem Config.hardware_lcdcBgEnableBit : Config.hardware.lcdcBgEnableBit = 0 := rfl
@[simp] theorem Config.hardware_tileStride : Config.hardware.tileStride = 16 := rfl
@[simp] theorem Config.hardware_lowIdBaseWhenClear : Config.hardware.lowIdBaseWhenClear = 0x8800 := rfl
@[simp] theorem Config.hardware_echoMirror : Config.hardware.echoMirror = false := rfl
@[simp] theorem Config.hardware_memReset : Config.hardware.memReset = 0x00 := rfl
@[simp] theorem Config.hardware_fbReset : Config.hardware.fbReset = 0 := rfl
@[simp] theorem Config.hardware_bgEnableGatesUpdate : Config.hardware.bgEnableGatesUpdate = false := rfl

end Sys2Proof
end

