-- ==== Sys2Proof/Laws/PerInstr.lean ====
section
/-! SUPPORT. A law of every command as syntax, one lemma a command: its encoded word carries the fixed bits of
its own row of the opcode table (R90, and the mask and match table after R91). -/

namespace Sys2Proof.Laws.RowMatch

/-- The encoded word of `i` matches the opcode-table row of `i`'s mnemonic. -/
def Statement (i : Instr) : Prop :=
  ∃ row ∈ opcodeTable, row.mnemonic = i.mnemonic ∧ encode i &&& row.mask = row.pattern

/-- A field above or below the fixed bits of a mask does not reach them: the masked words agree bit by bit. -/
theorem of_bits {i : Instr} (row : OpcodeRow) (hrow : row ∈ opcodeTable) (hname : row.mnemonic = i.mnemonic)
    (hbits : ∀ k < 32, (encode i &&& row.mask).getLsbD k = row.pattern.getLsbD k) : Statement i :=
  ⟨row, hrow, hname, BitVec.eq_of_getLsbD_eq hbits⟩

theorem rd8 (reg : Sel) : Statement (.rd8 reg) :=
  of_bits ⟨"RD8", 0x10000000, 0xFF0FFFFF⟩ (by decide) rfl fun k hk => by
    interval_cases k <;> simp [encode, place]

theorem wr8 (reg : Sel) (v : Byte) : Statement (.wr8 reg v) :=
  of_bits ⟨"WR8", 0x11000000, 0xFF0FFF00⟩ (by decide) rfl fun k hk => by
    interval_cases k <;> simp [encode, place]

theorem rd16 (reg : Sel) (mode : Mode) : Statement (.rd16 reg mode) :=
  of_bits ⟨"RD16", 0x12000000, 0xFF03FFFF⟩ (by decide) rfl fun k hk => by
    interval_cases k <;> simp [encode, place]

theorem wr16 (reg : Sel) (v : Word) : Statement (.wr16 reg v) :=
  of_bits ⟨"WR16", 0x13000000, 0xFF0F0000⟩ (by decide) rfl fun k hk => by
    interval_cases k <;> simp [encode, place]

theorem fget (flag : Flag) : Statement (.fget flag) :=
  of_bits ⟨"FGET", 0x14000000, 0xFF3FFFFF⟩ (by decide) rfl fun k hk => by
    interval_cases k <;> simp [encode, place]

theorem fset (flag : Flag) (b : Bool) : Statement (.fset flag b) :=
  of_bits ⟨"FSET", 0x15000000, 0xFF3FFFFE⟩ (by decide) rfl fun k hk => by
    interval_cases k <;> simp [encode, place]

theorem imeget : Statement .imeget :=
  of_bits ⟨"IMEGET", 0x16000000, 0xFFFFFFFF⟩ (by decide) rfl fun k hk => by
    interval_cases k <;> simp [encode, place]

theorem imeset (b : Bool) : Statement (.imeset b) :=
  of_bits ⟨"IMESET", 0x17000000, 0xFFFFFFFE⟩ (by decide) rfl fun k hk => by
    interval_cases k <;> simp [encode, place]

theorem hwget : Statement .hwget :=
  of_bits ⟨"HWGET", 0x18000000, 0xFFFFFFFF⟩ (by decide) rfl fun k hk => by
    interval_cases k <;> simp [encode, place]

theorem hwset (b : Bool) : Statement (.hwset b) :=
  of_bits ⟨"HWSET", 0x19000000, 0xFFFFFFFE⟩ (by decide) rfl fun k hk => by
    interval_cases k <;> simp [encode, place]

theorem icls (v : Byte) : Statement (.icls v) :=
  of_bits ⟨"ICLS", 0x1A000000, 0xFFFFFF00⟩ (by decide) rfl fun k hk => by
    interval_cases k <;> simp [encode, place]

theorem intq : Statement .intq :=
  of_bits ⟨"INTQ", 0x1B000000, 0xFFFFFFFF⟩ (by decide) rfl fun k hk => by
    interval_cases k <;> simp [encode, place]

theorem brd (addr : Word) : Statement (.brd addr) :=
  of_bits ⟨"BRD", 0x20000000, 0xFF0000FF⟩ (by decide) rfl fun k hk => by
    interval_cases k <;> simp [encode, place]

theorem bwr (addr : Word) (data : Byte) : Statement (.bwr addr data) :=
  of_bits ⟨"BWR", 0x21000000, 0xFF000000⟩ (by decide) rfl fun k hk => by
    interval_cases k <;> simp [encode, place]

theorem ldt : Statement .ldt :=
  of_bits ⟨"LDT", 0x22000000, 0xFFFFFFFF⟩ (by decide) rfl fun k hk => by
    interval_cases k <;> simp [encode, place]

theorem tget (id : Word) : Statement (.tget id) :=
  of_bits ⟨"TGET", 0x23000000, 0xFFFF0000⟩ (by decide) rfl fun k hk => by
    interval_cases k <;> simp [encode, place]

theorem tln (lo : Byte) (hi : Byte) : Statement (.tln lo hi) :=
  of_bits ⟨"TLN", 0x30000000, 0xFF0000FF⟩ (by decide) rfl fun k hk => by
    interval_cases k <;> simp [encode, place]

theorem til (payload : Payload) : Statement (.til payload) :=
  of_bits ⟨"TIL", 0x31000000, 0xFFFFFFFF⟩ (by decide) rfl fun k hk => by
    interval_cases k <;> simp [encode, place]

theorem dset (color : Color) (x : Byte) (y : Byte) : Statement (.dset color x y) :=
  of_bits ⟨"DSET", 0x32000000, 0xFFFC0000⟩ (by decide) rfl fun k hk => by
    interval_cases k <;> simp [encode, place]

theorem dget (x : Byte) (y : Byte) : Statement (.dget x y) :=
  of_bits ⟨"DGET", 0x33000000, 0xFFFF0000⟩ (by decide) rfl fun k hk => by
    interval_cases k <;> simp [encode, place]

theorem dupd : Statement .dupd :=
  of_bits ⟨"DUPD", 0x34000000, 0xFFFFFFFF⟩ (by decide) rfl fun k hk => by
    interval_cases k <;> simp [encode, place]

theorem bgw : Statement .bgw :=
  of_bits ⟨"BGW", 0x35000000, 0xFFFFFFFF⟩ (by decide) rfl fun k hk => by
    interval_cases k <;> simp [encode, place]

end Sys2Proof.Laws.RowMatch
end

