-- ==== Sys2Proof/Laws/Tiles.lean ====
section
/-! SUPPORT. The tile functions, one pixel, byte or line at a time (R80, R87, R88, R150, R151). -/

namespace Sys2Proof.Machine

/-- Pixel `i` of a decoded line. -/
@[simp] theorem getElem_decodeLine (lo hi : Byte) (i : Nat) (h : i < 8) :
    (decodeLine lo hi)[i] = BitVec.ofBool (hi.getLsbD (7 - i)) ++ BitVec.ofBool (lo.getLsbD (7 - i)) := by
  simp [decodeLine]

/-- Line `k` of a decoded tile. -/
@[simp] theorem getElem_decodeTile (b : Vector Byte 16) (k : Nat) (h : k < 8) :
    (decodeTile b)[k] = decodeLine b[2 * k] b[2 * k + 1] := by
  simp [decodeTile]

/-- Byte `k` of a payload. -/
@[simp] theorem getElem_payloadBytes (payload : Payload) (k : Nat) (h : k < 16) :
    (payloadBytes payload)[k] = payload.extractLsb' (8 * k) 8 := by
  simp [payloadBytes]

/-- Byte `k` of a tile on the bus. -/
@[simp] theorem getElem_tileBytes (cfg : Config) (m : List Host.Cell) (id lcdc : Byte) (k : Nat) (h : k < 16) :
    (tileBytes cfg m id lcdc)[k] = busRead cfg m (tileAddr cfg id lcdc + BitVec.ofNat 16 k) := by
  simp [tileBytes]

/-- The two bits that pixel `i` takes in a packed line. -/
theorem getLsbD_packLine (px : TileLine) {i j : Nat} (hi : i < 8) (hj : j < 2) :
    (packLine px).getLsbD (2 * (7 - i) + j) = px[i].getLsbD j := by
  unfold packLine
  interval_cases i <;> interval_cases j <;> simp only [BitVec.getLsbD_append] <;> rfl

/-- The sixteen bits that line `k` takes in a packed tile. -/
theorem getLsbD_packTile (t : Tile) {k j : Nat} (hk : k < 8) (hj : j < 16) :
    (packTile t).getLsbD (16 * k + j) = (packLine t[k]).getLsbD j := by
  unfold packTile
  interval_cases k <;> simp only [BitVec.getLsbD_append] <;>
    repeat (first | rw [if_pos (by omega)] | rw [if_neg (by omega)])
  all_goals (congr 1; omega)

/-- The packed lines of a classified byte are its low five bits. -/
@[simp] theorem pack_classify (v : Byte) : (classify v).pack = v.extractLsb' 0 5 := by
  revert v
  decide

/-- A tile on the bus is blank when none of its sixteen bytes is not zero. -/
theorem blankTile_tileBytes (cfg : Config) (m : List Host.Cell) (id lcdc : Byte) :
    blankTile (tileBytes cfg m id lcdc) =
      !(List.range 16).any fun k => busRead cfg m (tileAddr cfg id lcdc + BitVec.ofNat 16 k) != 0 := by
  have bytes : (tileBytes cfg m id lcdc).toList =
      (List.range 16).map fun k => busRead cfg m (tileAddr cfg id lcdc + BitVec.ofNat 16 k) := by
    apply List.ext_getElem <;> simp [tileBytes]
  simp [blankTile, bytes, List.all_map, List.not_any_eq_all_not, Function.comp_def, bne]

/-- The scan of `LDT` over any list of identifiers: those not blank, in order, each with its tile. -/
theorem filterMap_tiles (cfg : Config) (m : List Host.Cell) (lcdc : Byte) (l : List Nat) :
    (l.filterMap fun id =>
      let b := tileBytes cfg m (BitVec.ofNat 8 id) lcdc
      if blankTile b then none else some (decodeTile b)) =
    ((l.map (BitVec.ofNat 8)).filter fun id => !blankTile (tileBytes cfg m id lcdc)).map
      fun id => tileAt cfg m id lcdc := by
  induction l with
  | nil => rfl
  | cons a l ih =>
    rw [List.filterMap_cons, List.map_cons, List.filter_cons, ih]
    cases h : blankTile (tileBytes cfg m (BitVec.ofNat 8 a) lcdc) <;> simp [h, tileAt]

/-- The tiles of `LDT`: those of the identifiers that are not blank, ascending (R133). -/
theorem loadTiles_eq (cfg : Config) (m : List Host.Cell) :
    loadTiles cfg m = (((List.range 256).map (BitVec.ofNat 8)).filter fun id =>
      !blankTile (tileBytes cfg m id (busRead cfg m cfg.addrLCDC))).map
      fun id => tileAt cfg m id (busRead cfg m cfg.addrLCDC) :=
  filterMap_tiles cfg m _ _

end Sys2Proof.Machine
end

