-- ==== Sys2Proof/Machine/Assembler.lean ====
section
/-! DEFINITION. The textual form of a command (R92) and the two pseudo-commands, which expand to `BWR` alone
(R93). Neither is behaviour of the block; no step uses them. -/

namespace Sys2Proof.Machine

/-- The name of a selector; the reserved codes have none (R92). -/
def selText : Sel → Option String
  | .r8 .A => some "A"
  | .r8 .F => some "F"
  | .r8 .B => some "B"
  | .r8 .C => some "C"
  | .r8 .D => some "D"
  | .r8 .E => some "E"
  | .r8 .H => some "H"
  | .r8 .L => some "L"
  | .r16 .AF => some "AF"
  | .r16 .BC => some "BC"
  | .r16 .DE => some "DE"
  | .r16 .HL => some "HL"
  | .r16 .SP => some "SP"
  | .r16 .PC => some "PC"
  | .reserved14 => none
  | .reserved15 => none

/-- The operand of `RD16`: a selector, or `HL+`, `HL-` (R92). -/
def rd16Text (reg : Sel) (mode : Mode) : Option String :=
  match reg, mode with
  | _, .normal => selText reg
  | .r16 .HL, .increment => some "HL+"
  | .r16 .HL, .decrement => some "HL-"
  | _, _ => none

/-- The name of a flag (R92). -/
def flagText : Flag → String
  | .Z => "Z"
  | .N => "N"
  | .H => "H"
  | .C => "C"

/-- A number, in decimal (R92 allows hexadecimal, binary or decimal). -/
def numText {w : Nat} (v : BitVec w) : String := toString v.toNat

/-- The sixteen bytes of `TIL`, byte 0 first, separated by spaces (R92, R80). -/
def payloadText (payload : Payload) : String :=
  String.intercalate " " ((List.range 16).map fun k => numText (payload.extractLsb' (8 * k) 8))

/-- The operands of a command as R92 writes them; none where an operand has no name. -/
def operandText : Instr → Option String
  | .rd8 reg => selText reg
  | .wr8 reg v => (selText reg).map (· ++ ", " ++ numText v)
  | .rd16 reg mode => rd16Text reg mode
  | .wr16 reg v => (selText reg).map (· ++ ", " ++ numText v)
  | .fget flag => some (flagText flag)
  | .fset flag b => some (flagText flag ++ ", " ++ numText (oneBit b))
  | .imeget => some ""
  | .imeset b => some (numText (oneBit b))
  | .hwget => some ""
  | .hwset b => some (numText (oneBit b))
  | .icls v => some (numText v)
  | .intq => some ""
  | .brd addr => some (numText addr)
  | .bwr addr data => some (numText addr ++ ", " ++ numText data)
  | .ldt => some ""
  | .tget id => some (numText id)
  | .tln lo hi => some (numText lo ++ ", " ++ numText hi)
  | .til payload => some (payloadText payload)
  | .dset color x y => some ("C" ++ numText color ++ ", " ++ numText x ++ ", " ++ numText y)
  | .dget x y => some (numText x ++ ", " ++ numText y)
  | .dupd => some ""
  | .bgw => some ""

/-- `MNEMONIC operand, operand` (R92). -/
def asmText (i : Instr) : Option String :=
  (operandText i).map fun ops => if ops.isEmpty then i.mnemonic else i.mnemonic ++ " " ++ ops

/-- `LOAD a16: b0 b1 ... bn` (R93): `BWR a16 +16 k, bk` in ascending `k`. -/
def loadCommands (a : Word) : List Byte → List Instr
  | [] => []
  | b :: rest => .bwr a b :: loadCommands (a + 1) rest

/-- `FILL first, last, v8` (R93): `BWR a, v8` for `a = first .. last`, ascending. -/
def fillCommands (first last : Word) (v : Byte) : List Instr :=
  (List.range (last.toNat + 1 - first.toNat)).map fun k => .bwr (first + BitVec.ofNat 16 k) v

end Sys2Proof.Machine
end

