-- ==== Sys2Proof/Tests/Slice0.lean ====
section
/-! SUPPORT. Tests: the programming contract, decoding, one-step vectors of spec/95_test_vectors.md, and for
every obligation with hypotheses a witness that meets them. -/

namespace Sys2Proof.Tests

open Sys2Proof Sys2Proof.Machine

/-! ### Helpers -/

/-- The state after the word `w` (and payload) has been presented and taken; the state itself on a stop. -/
def after (s : State) (w : CmdWord) (payload : Payload := 0) : State :=
  match step (s.present w payload) with
  | .next t => t
  | .fault _ => s
  | .refused _ => s

/-- The response to the word `w`. -/
def answer (s : State) (w : CmdWord) (payload : Payload := 0) : Option Response := (after s w payload).response

/-- The reset state with some bus cells set. -/
def withCells (cells : List (Word × Byte)) : State :=
  { State.reset with mem := cells.foldl (fun m cell => busWrite Config.hardware m cell.1 cell.2) [] }

/-- The response to a command that aborts with `c`. -/
def aborts (c : Cause) : Option Response := some (.abort c)

/-- The response to a command that completes with `d`. -/
def gives (d : Data) : Option Response := some (.ok d)

/-! ### The programming contract: an ill-formed term for each check -/

theorem test_wf_rd8_of_pair : (Instr.rd8 (.r16 .HL)).wf = false := by decide
theorem test_wf_rd8_reserved : (Instr.rd8 .reserved14).wf = false := by decide
theorem test_wf_wr8_of_pair : (Instr.wr8 (.r16 .SP) 0).wf = false := by decide
theorem test_wf_rd16_of_byte : (Instr.rd16 (.r8 .A) .normal).wf = false := by decide
theorem test_wf_rd16_mode_without_hl : (Instr.rd16 (.r16 .BC) .increment).wf = false := by decide
theorem test_wf_rd16_reserved_mode : (Instr.rd16 (.r16 .HL) .reserved).wf = false := by decide
theorem test_wf_wr16_of_byte : (Instr.wr16 (.r8 .A) 0xABCD).wf = false := by decide
theorem test_wf_wr16_reserved : (Instr.wr16 .reserved15 0).wf = false := by decide
theorem test_wf_tget_256 : (Instr.tget 256).wf = false := by decide
theorem test_wf_dset_x_160 : (Instr.dset 3 160 0).wf = false := by decide
theorem test_wf_dget_y_144 : (Instr.dget 0 144).wf = false := by decide
theorem test_wf_last_pixel : (Instr.dset 3 159 143).wf = true := by decide
theorem test_wf_rd16_hl_minus : (Instr.rd16 (.r16 .HL) .decrement).wf = true := by decide

/-! ### Decoding: the words of 95_test_vectors.md and of the examples, read by hand from R73 to R82 -/

-- 0001_0000 0001 0000 0000_0000_0000_0000: op 0x10, reg 1
theorem test_decode_rd8 : decode 0b00010000_0001_00_00_0000000000000000 0 = .ok (.rd8 (.r8 .F)) := rfl
theorem test_decode_wr8 : decode 0b00010001_0110_00_00_00000000_10101011 0 = .ok (.wr8 (.r8 .H) 0xAB) := rfl
theorem test_decode_rd16 : decode 0b00010010_1011_10_00_0000000000000000 0 = .ok (.rd16 (.r16 .HL) .decrement) := rfl
theorem test_decode_wr16 : decode 0b00010011_1101_00_00_0000000100000001 0 = .ok (.wr16 (.r16 .PC) 0x0101) := rfl
theorem test_decode_fget : decode 0b00010100_10_000000_00000000_00000000 0 = .ok (.fget .H) := rfl
theorem test_decode_fset : decode 0b00010101_11_000000_00000000_00000001 0 = .ok (.fset .C true) := rfl
theorem test_decode_imeget : decode 0x16000000 0 = .ok .imeget := rfl
theorem test_decode_imeset : decode 0x17000001 0 = .ok (.imeset true) := rfl
theorem test_decode_hwget : decode 0x18000000 0 = .ok .hwget := rfl
theorem test_decode_hwset : decode 0x19000001 0 = .ok (.hwset true) := rfl
theorem test_decode_icls : decode 0x1A000015 0 = .ok (.icls 0x15) := rfl
theorem test_decode_intq : decode 0x1B000000 0 = .ok .intq := rfl
theorem test_decode_brd : decode 0b00100000_0001001000110100_00000000 0 = .ok (.brd 0x1234) := rfl
theorem test_decode_bwr : decode 0b00100001_1111111101000010_11111010 0 = .ok (.bwr 0xFF42 0xFA) := rfl
theorem test_decode_ldt : decode 0x22000000 0 = .ok .ldt := rfl
theorem test_decode_tget : decode 0x2300FFFF 0 = .ok (.tget 0xFFFF) := rfl
theorem test_decode_tln : decode 0b00110000_10110000_11000000_00000000 0 = .ok (.tln 0xB0 0xC0) := rfl
theorem test_decode_til : decode 0x31000000 0x0102 = .ok (.til 0x0102) := rfl
theorem test_decode_dset : decode 0b00110010_000000_10_00000011_00000001 0 = .ok (.dset 2 3 1) := rfl
theorem test_decode_dget : decode 0x33000103 0 = .ok (.dget 1 3) := rfl
theorem test_decode_dupd : decode 0x34000000 0 = .ok .dupd := rfl
theorem test_decode_bgw : decode 0x35000000 0 = .ok .bgw := rfl
-- V28 to V36, V46, V69, V78: `Invalid` words
theorem test_decode_invalid :
    [0x13B40000, 0x10100001, 0x11100100, 0x14000001, 0x16000001, 0x1A000100, 0x20C00001, 0x30000001,
     0x32040000].map (fun w => decode w 0) = List.replicate 9 (.error .mustBeZero) := rfl
theorem test_decode_unused_op :
    [0x00000000, 0x1C000000, 0xFFFFFFFF, 0x24000000, 0x2FFFFFFF, 0x36000000].map (fun w => decode w 0) =
      List.replicate 6 (.error .reservedOp) := rfl
-- R91: reserved operand values pass decoding
theorem test_decode_reserved_operands :
    decode 0x12EC0000 0 = .ok (.rd16 .reserved14 .reserved) := rfl

/-! ### One step of each command -/

-- S9, V20
theorem test_rd8_flag_byte : answer { State.reset with F := 0xB0 } 0x10100000 = gives (.byte 0xB0) := by decide
theorem test_rd8_wrong_width : answer State.reset 0x10B00000 = aborts .wrongWidth := by decide
-- V5, V7
theorem test_wr8_masks_flags : (after State.reset 0x111000FF).F = 0xF0 := by decide
theorem test_wr8_leaves_other_half :
    let t := after { State.reset with A := 0x11, F := 0x20 } 0x11000099
    t.A = 0x99 ∧ t.F = 0x20 := by decide
-- S2, V1
theorem test_rd16_increment_has_no_carry :
    let t := after { State.reset with H := 0x12, L := 0xFF } 0x12B40000
    t.response = gives (.word 0x12FF) ∧ t.H = 0x12 ∧ t.L = 0x00 := by decide
theorem test_rd16_decrement_has_no_borrow :
    let t := after { State.reset with H := 0x12, L := 0x00 } 0x12B80000
    t.response = gives (.word 0x1200) ∧ t.H = 0x12 ∧ t.L = 0xFF := by decide
-- S1, V9
theorem test_wr16_af_masks :
    let t := after State.reset 0x138012FF
    t.A = 0x12 ∧ t.F = 0xF0 ∧ t.response = gives .none := by decide
theorem test_wr16_de : (after State.reset 0x13A0C0DE).D = 0xC0 ∧ (after State.reset 0x13A0C0DE).E = 0xDE := by
  decide
-- R104's example
theorem test_fget_carry : answer { State.reset with F := 0x90 } 0x14C00000 = gives (.bit true) := by decide
theorem test_fget_subtract : answer { State.reset with F := 0x90 } 0x14400000 = gives (.bit false) := by decide
-- V12, V13
theorem test_fset_clears_one : (after { State.reset with F := 0xF0 } 0x15800000).F = 0xD0 := by decide
theorem test_fset_already_set : (after { State.reset with F := 0x50 } 0x15400001).F = 0x50 := by decide
-- V14, V15
theorem test_imeget : answer { State.reset with IME := true } 0x16000000 = gives (.bit true) := by decide
theorem test_imeset_leaves_hw :
    (after State.reset 0x17000001).IME = true ∧ (after State.reset 0x17000001).HW = false := by decide
theorem test_hwget : answer { State.reset with IME := true } 0x18000000 = gives (.bit false) := by decide
theorem test_hwset_leaves_ime :
    (after State.reset 0x19000001).HW = true ∧ (after State.reset 0x19000001).IME = false := by decide
-- S7, V16
theorem test_icls : answer State.reset 0x1A000015 = gives (.lines 0b10101) := by decide
theorem test_icls_ignores_high_bits : answer State.reset 0x1A0000E0 = gives (.lines 0) := by decide
-- S7, V18
theorem test_intq : answer (withCells [(0xFFFF, 0x15), (0xFF0F, 0x04)]) 0x1B000000 = gives (.linePair 0x095) := by
  decide
theorem test_intq_uncombined :
    answer (withCells [(0xFFFF, 0xFF), (0xFF0F, 0xE0)]) 0x1B000000 = gives (.linePair 0x01F) := by decide
-- V40, S4
theorem test_brd_unwritten : answer State.reset 0x20123400 = gives (.byte 0x00) := by decide
theorem test_brd_echo_is_not_a_mirror : answer (withCells [(0xC000, 0xAA)]) 0x20E00000 = gives (.byte 0x00) := by
  decide
-- V41, V43
theorem test_bwr_rom : (after State.reset 0x217FFFC3).byteAt 0x7FFF = 0xC3 := by decide
theorem test_bwr_dma_copies_nothing :
    (after State.reset 0x21FF46C0).byteAt 0xFF46 = 0xC0 ∧ (after State.reset 0x21FF46C0).byteAt 0xFE00 = 0x00 := by
  decide
-- S6, P5
theorem test_ldt_empty : answer State.reset 0x22000000 = gives (.tiles 0 []) := by decide +kernel
theorem test_ldt_aliases :
    answer (withCells [(0x8850, 0xFF), (0x8851, 0x81)]) 0x22000000 =
      gives (.tiles 2 [0xD557, 0xD557]) := by decide +kernel
-- V51, V48
theorem test_tget_127 :
    answer (withCells [(0xFF40, 0x10), (0x87F1, 0x01)]) 0x2300007F = gives (.tile 0x0002) := by decide
theorem test_tget_256_aborts : answer State.reset 0x23000100 = aborts .tileIndexRange := by decide
-- S5, V65
theorem test_tln : answer State.reset 0x30B0C000 = gives (.tileLine 0xE500) := by decide
theorem test_tln_ends : answer State.reset 0x30018000 = gives (.tileLine 0x8001) := by decide
-- V70
theorem test_til :
    answer State.reset 0x31000000 0x7C38567C0A7E5E7E4242424242427E3C =
      gives (.tile 0x2FE0377815DC37FC300C300C300C2FF8) := by decide
-- V71, V73
theorem test_dset_column_and_row :
    let t := after State.reset 0x32020301
    FrameBuffer.pixel t.fb 3 1 = 2 ∧ FrameBuffer.pixel t.fb 1 3 = 0 := by decide
theorem test_dset_160_aborts :
    let t := after State.reset 0x3203A000
    t.response = aborts .displayBounds ∧ t.aborted = some .displayBounds := by decide
-- V71, V76
theorem test_dget : answer (after State.reset 0x32020301) 0x33000301 = gives (.color 2) := by decide
theorem test_dget_144_aborts : answer State.reset 0x33000090 = aborts .displayBounds := by decide
-- P5 steps 10 and 15 (wrap of both coordinates, map 1), R157's example
theorem test_dupd_wraps :
    let t := after (withCells [(0xFF40, 0x08), (0x8850, 0xFF), (0x8851, 0x81), (0x9FFF, 0x85), (0x9C00, 0x05),
      (0xFF43, 0xF8), (0xFF42, 0xF8)]) 0x34000000
    FrameBuffer.pixel t.fb 0 0 = 3 ∧ FrameBuffer.pixel t.fb 1 0 = 1 ∧ FrameBuffer.pixel t.fb 8 8 = 3 ∧
      FrameBuffer.pixel t.fb 9 8 = 1 ∧ FrameBuffer.pixel t.fb 8 0 = 0 := by decide
theorem test_dupd_example :
    let t := after (withCells [(0xFF40, 0x10), (0x8010, 0xFF), (0x9800, 0x01)]) 0x34000000
    FrameBuffer.pixel t.fb 7 0 = 1 ∧ FrameBuffer.pixel t.fb 8 0 = 0 ∧ FrameBuffer.pixel t.fb 0 1 = 0 := by decide
-- S8 (enabled 0, 250, 10, 137, 169), V84 (enabled 1, 255, 255, 142, 158)
theorem test_bgw : answer (withCells [(0xFF42, 250), (0xFF43, 10)]) 0x35000000 =
    gives (.window (0#1 ++ 250#8 ++ 10#8 ++ 137#8 ++ 169#8)) := by decide
theorem test_bgw_enabled : answer (withCells [(0xFF42, 255), (0xFF43, 255), (0xFF40, 0x91)]) 0x35000000 =
    gives (.window (1#1 ++ 255#8 ++ 255#8 ++ 142#8 ++ 158#8)) := by decide
/-! ### Witnesses: for each obligation with hypotheses, a state and operands that meet them, at the ends of each
range -/

/-- A live state with every register at a value of its own. -/
def sample : State :=
  { State.reset with A := 0x11, F := 0xB0, B := 0x22, C := 0x33, D := 0x44, E := 0x55, H := 0x66, L := 0xFF,
                     SP := 0xFFFE, PC := 0x0100, IME := true, HW := true }

/-- A configuration that has the spec's named alternative, or another value, for every open parameter that is not
an address or a bit number. -/
def alternative : Config :=
  { Config.hardware with tileStride := 1, lowIdBaseWhenClear := 0x9000, echoMirror := true, memReset := 0xFF,
                         fbReset := 3, bgEnableGatesUpdate := true }

/-- The response to a command of the block with configuration `cfg`. -/
def answerWith (cfg : Config) (s : State) (i : Instr) : Option Response :=
  match execWith cfg i s with
  | .next t => t.response
  | .fault _ => none
  | .refused _ => none

/-- The reset state of the block with configuration `cfg`, with some bus cells set. -/
def withCellsOf (cfg : Config) (cells : List (Word × Byte)) : State :=
  { State.resetWith cfg with mem := cells.foldl (fun m cell => busWrite cfg m cell.1 cell.2) [] }

/-- An aborted state at which the reset input is asserted. -/
def deadAtReset : State :=
  { State.reset with aborted := some .wrongWidth, response := some (.abort .wrongWidth), port := [.reset] }

theorem witness_DecodeOfEncodeGivesTheCommand :
    (∀ q, Instr.til 5 = .til q → q = 5) ∧ (∀ q, Instr.bwr 0xFFFF 0xFF = .til q → q = 0) ∧
    decode (encode (.bwr 0xFFFF 0xFF)) 0 = .ok (.bwr 0xFFFF 0xFF) :=
  ⟨fun _ h => (Instr.til.inj h).symm, fun _ h => (nomatch h), rfl⟩

theorem witness_EncodeOfDecodeGivesTheWord : decode 0x12FC0000 0 = .ok (.rd16 .reserved15 .reserved) := rfl

theorem witness_InvalidWordsAreThoseOfNoRow :
    decode 0x35000000 0 = .ok .bgw ∧ ⟨"BGW", 0x35000000, 0xFFFFFFFF⟩ ∈ opcodeTable ∧
    (0x35000000 : CmdWord) &&& 0xFFFFFFFF = 0x35000000 ∧
    sample.aborted = none ∧ (sample.present 0x0FFFFFFF 0).port = .command 0x0FFFFFFF 0 :: [] ∧
    (∀ row ∈ opcodeTable, (0x0FFFFFFF : CmdWord) &&& row.mask ≠ row.pattern) ∧
    (∀ row ∈ opcodeTable, (0x36000000 : CmdWord) &&& row.mask ≠ row.pattern) := by
  refine ⟨rfl, ?_, ?_, rfl, rfl, ?_, ?_⟩ <;> decide

theorem witness_PayloadReadByTilAlone : ∀ a, decode 0x22000000 7 ≠ .ok (.til a) := fun _ h => (nomatch h)

theorem witness_StepRunsTheDecodedCommand :
    (sample.present 0x12B40000 0).aborted = none ∧ (sample.present 0x12B40000 0).port = .command 0x12B40000 0 :: [] ∧
    decode 0x12B40000 0 = .ok (.rd16 (.r16 .HL) .increment) := ⟨rfl, rfl, rfl⟩

theorem witness_PlacedWordRunsNext :
    sample.aborted = none ∧ decodeTableWord 32 0x2300FFFF = some (.tget 0xFFFF) ∧
    decodeTableWord 160 (5 * 2 ^ 32 + 0x31000000) = some (.til 5) := ⟨rfl, rfl, rfl⟩

theorem witness_NothingPresentedNothingHappens : sample.aborted = none ∧ sample.port = [] := ⟨rfl, rfl⟩

theorem witness_AbortedBlockIsDeadUntilReset :
    deadAtReset.aborted = some .wrongWidth ∧ deadAtReset.port = .reset :: [] ∧
    { deadAtReset with port := [] }.aborted = some .wrongWidth ∧
    (∀ rest, { deadAtReset with port := [] }.port ≠ .reset :: rest) := by
  refine ⟨rfl, rfl, rfl, fun rest h => ?_⟩
  cases h

theorem witness_ResetIsTheOnlyExitAndIsTotal :
    deadAtReset.aborted = some .wrongWidth ∧ step deadAtReset = .next State.reset ∧
    deadAtReset.port = .reset :: [] := ⟨rfl, rfl, rfl⟩

theorem witness_CommandsAbortExactlyOnBrokenContracts :
    sample.aborted = none ∧ (Instr.dset 3 159 143).wf = true ∧ (Instr.dset 3 160 143).wf = false ∧
    (Instr.dset 3 159 144).wf = false ∧ (Instr.tget 255).wf = true ∧ (Instr.tget 256).wf = false := by decide

theorem witness_AbortEntryIsPreciseAndSticky :
    (∃ t, exec (.tget 256) sample = .next t ∧ t.response = some (.abort .tileIndexRange)) ∧
    decode 0x13B40000 0 = .error .mustBeZero ∧ sample.aborted = none ∧
    (sample.present 0x13B40000 0).port = .command 0x13B40000 0 :: [] ∧
    deadAtReset.abortOutput = true ∧ step deadAtReset = .next State.reset :=
  ⟨⟨_, rfl, rfl⟩, rfl, rfl, rfl, rfl, rfl⟩

/-- One command for each cause, at the end of its range, and the order of the checks (V22, V25, V26, V27). -/
theorem witness_CausesFollowTheTable :
    answer sample 0x10B00000 = aborts .wrongWidth ∧ answer sample 0x12040000 = aborts .wrongWidth ∧
    answer sample 0x1300ABCD = aborts .wrongWidth ∧ answer sample 0x23000100 = aborts .tileIndexRange ∧
    answer sample 0x3203A000 = aborts .displayBounds ∧ answer sample 0x33000090 = aborts .displayBounds ∧
    answer sample 0x12EC0000 = aborts .reservedEncoding ∧ answer sample 0x12BC0000 = aborts .reservedEncoding ∧
    answer sample 0x12840000 = aborts .reservedEncoding ∧ answer sample 0x13B40000 = aborts .reservedEncoding := by
  decide

theorem witness_EveryStepKeepsTheInvariant :
    (sample.present 0x21000031 0).Inv Config.hardware ∧ (∃ t, step (sample.present 0x21000031 0) = .next t) ∧
    (sample.present 0x21000031 0).Inv alternative ∧ ∃ t, stepWith alternative (sample.present 0x21000031 0) = .next t :=
  ⟨⟨by unfold State.flagsMasked; decide, by decide, fun c => ⟨nofun, nofun⟩, by decide⟩, ⟨_, rfl⟩,
   ⟨by unfold State.flagsMasked; decide, by decide, fun c => ⟨nofun, nofun⟩, by decide⟩, ⟨_, rfl⟩⟩

theorem witness_FlagLowNibbleStaysZero :
    sample.F &&& 0x0F = 0 ∧ ∃ t, step (sample.present 0x111000FF 0) = .next t := ⟨by decide, _, rfl⟩

theorem witness_OtherFamiliesIgnoreTheRegisterFile :
    inRegisterFileFamily .dupd = false ∧ inRegisterFileFamily (.brd 0xFFFF) = false ∧
    (∃ t, exec .dupd sample = .next t) ∧ ∃ t, exec (.brd 0xFFFF) sample = .next t :=
  ⟨rfl, rfl, ⟨_, rfl⟩, _, rfl⟩

theorem witness_OnlyBwrChangesTheBus :
    (∃ t, exec .dupd sample = .next t) ∧ ∀ a v, Instr.dupd ≠ .bwr a v := ⟨⟨_, rfl⟩, nofun⟩

theorem witness_OnlyDsetAndDupdChangeTheFrameBuffer :
    (∃ t, exec (.bwr 0xFF40 0x91) sample = .next t) ∧ (∀ c x y, Instr.bwr 0xFF40 0x91 ≠ .dset c x y) ∧
    Instr.bwr 0xFF40 0x91 ≠ .dupd := ⟨⟨_, rfl⟩, nofun, nofun⟩

theorem witness_RegistersChangeOnlyByTheirOwnCommands :
    (after sample 0x13D00000).PC ≠ sample.PC ∧ (after sample 0x13C00000).SP ≠ sample.SP ∧
    (after sample 0x17000000).IME ≠ sample.IME ∧ (after sample 0x19000000).HW ≠ sample.HW ∧
    (after sample 0x13800000).A ≠ sample.A ∧ (after sample 0x11200000).B ≠ sample.B ∧
    (after sample 0x13900000).C ≠ sample.C ∧ (after sample 0x11400000).D ≠ sample.D ∧
    (after sample 0x13A00000).E ≠ sample.E ∧ (after sample 0x11600000).H ≠ sample.H ∧
    (after sample 0x12B40000).L ≠ sample.L := by decide

theorem witness_FlagsChangeOnlyWhenWritten :
    (after sample 0x15000000).F ≠ sample.F ∧ (after sample 0x11100000).F ≠ sample.F ∧
    (after sample 0x13800000).F ≠ sample.F := by decide

theorem witness_OnlyTheSteppingReadChangesState :
    isPlainRead (.rd16 (.r16 .HL) .normal) = true ∧ isPlainRead .ldt = true ∧
    (∃ t, exec (.rd16 (.r16 .HL) .normal) sample = .next t) ∧ ∃ t, exec .ldt sample = .next t :=
  ⟨rfl, rfl, ⟨_, rfl⟩, _, rfl⟩

theorem witness_Rd8ReadsTheNamedRegister :
    (Sel.reserved14 = .reserved14 ∨ Sel.reserved14 = .reserved15) ∧ sample.F &&& 0x0F = 0 := by decide

theorem witness_Wr8WritesTheNamedRegister :
    Sel.reserved15 = .reserved14 ∨ Sel.reserved15 = .reserved15 := by decide

theorem witness_Rd16ReadsThePairAndStepsL :
    (Sel.reserved14 = .reserved14 ∨ Sel.reserved14 = .reserved15) ∧
    (Mode.reserved = .reserved ∨ (Mode.reserved ≠ .normal ∧ Reg16.HL ≠ .HL)) ∧
    (Mode.increment = .reserved ∨ (Mode.increment ≠ .normal ∧ Reg16.AF ≠ .HL)) ∧
    (Mode.decrement = .reserved ∨ (Mode.decrement ≠ .normal ∧ Reg16.PC ≠ .HL)) ∧ sample.F &&& 0x0F = 0 := by decide

theorem witness_Wr16WritesThePair :
    (Sel.reserved15 = .reserved14 ∨ Sel.reserved15 = .reserved15) ∧ (1 : BitVec 2) ≠ 0 ∧ (3 : BitVec 2) ≠ 0 := by
  decide

theorem witness_RouteIsTotalAndOneToOne :
    Region.ie.base ≤ (0xFFFF : Word).toNat ∧ (0xFFFF : Word).toNat < Region.ie.base + Region.ie.size ∧
    Region.rom0.base ≤ (0 : Word).toNat ∧ (0 : Word).toNat < Region.rom0.base + Region.rom0.size ∧
    Config.hardware.echoMirror = false ∧ route Config.hardware 0xFFFE = route Config.hardware 0xFFFE := by decide

/-- With the mirror, which is not this hardware's, the last Echo address names the last mirrored cell. -/
theorem witness_EchoIsStorageOfItsOwn :
    0xC000 ≤ (0xDDFF : Word).toNat ∧ (0xDDFF : Word).toNat ≤ 0xDDFF ∧ 0xE000 ≤ (0xFDFF : Word).toNat ∧
    (0xFDFF : Word).toNat ≤ 0xFDFF ∧ { Config.hardware with echoMirror := true }.echoMirror = true ∧
    route { Config.hardware with echoMirror := true } 0xFDFF = (.wramX, 0xDFF) := by decide

theorem witness_TileAddrPlacesTheTile : 255 < (256 : Word).toNat := by decide

/-- The table of `TileAddr` values in 95_test_vectors.md. -/
theorem witness_TileAddrConsequencesWithTheDefaults :
    (0x10 : Byte).getLsbD 4 = true ∧ (0xEF : Byte).getLsbD 4 = false ∧
    [0, 1, 5, 127, 128, 133, 255].map (fun id => tileAddr Config.hardware id 0x10) =
      [0x8000, 0x8010, 0x8050, 0x87F0, 0x8800, 0x8850, 0x8FF0] ∧
    [0, 1, 5, 127, 128, 133, 255].map (fun id => tileAddr Config.hardware id 0x00) =
      [0x8800, 0x8810, 0x8850, 0x8FF0, 0x8800, 0x8850, 0x8FF0] := by decide

/-- The last byte of identifier 5 (S6); a zeroed video RAM; two states that differ in block 2 alone (V54). -/
theorem witness_LdtListsTheNonBlankTiles :
    (withCells [(0xFF40, 0x10), (0x805F, 0x01)]).byteAt
      (tileAddr Config.hardware 5 ((withCells [(0xFF40, 0x10), (0x805F, 0x01)]).byteAt Config.hardware.addrLCDC) +
        BitVec.ofNat 16 15) ≠ 0 ∧
    (∀ a : Word, 0x8000 ≤ a.toNat → a.toNat ≤ 0x9FFF → State.reset.byteAt a = 0) ∧
    sample.byteAt Config.hardware.addrLCDC = State.reset.byteAt Config.hardware.addrLCDC ∧
    (∀ a : Word, 0x8000 ≤ a.toNat → a.toNat ≤ 0x8FFF → sample.byteAt a = State.reset.byteAt a) ∧
    ∃ d, exec .ldt State.reset = .next { State.reset with response := some (.ok d) } :=
  ⟨by decide, fun _ _ _ => rfl, rfl, fun _ _ _ => rfl, _, rfl⟩

theorem witness_NonBlankTilesShowAColour : ∃ k, (Vector.replicate 16 (0x01 : Byte)).get k ≠ 0 := ⟨15, by decide⟩

theorem witness_TgetDecodesOneTile :
    (255 : Word).toNat ≤ 255 ∧ 255 < (256 : Word).toNat ∧ 255 < (0xFFFF : Word).toNat := by decide

theorem witness_DecodeLineUnpacksThePlanes : decodeLine 0xFF 0x00 = decodeLine 0xFF 0x00 := rfl

theorem witness_PackingFollowsTheLayout :
    7 < 8 ∧ (packLine (decodeLine 0xB0 0xC0)).getLsbD (2 * 7 + 1) = (0xC0 : Byte).getLsbD 7 := by decide

theorem witness_TlnUnpacksOneLine : 0 < 8 ∧ 7 < 8 := by decide

theorem witness_TilUnpacksThePayload :
    7 < 8 ∧ (0x7C38567C0A7E5E7E4242424242427E3C : Payload).getLsbD (8 * (2 * 7 + 1) + 6) = true := by decide

theorem witness_BwrWritesTheCellAlone : (0xE000 : Word) ≠ 0xC000 ∧ (0xFFFE : Word) ≠ 0xFFFF := by decide

theorem witness_DsetWritesOnePixel :
    ((158 : Fin 160) ≠ 159 ∨ (143 : Fin 144) ≠ 143) ∧ (160 ≤ (160 : Byte).toNat ∨ 144 ≤ (0 : Byte).toNat) ∧
    (160 ≤ (159 : Byte).toNat ∨ 144 ≤ (144 : Byte).toNat) := by decide

theorem witness_DgetReadsOnePixel :
    (160 ≤ (160 : Byte).toNat ∨ 144 ≤ (143 : Byte).toNat) ∧ (160 ≤ (0 : Byte).toNat ∨ 144 ≤ (144 : Byte).toNat) := by
  decide

theorem witness_DupdRebuildsTheFrame :
    let cfg := { Config.hardware with bgEnableGatesUpdate := true }
    cfg.bgEnableGatesUpdate = true ∧ (busRead cfg [] cfg.addrLCDC).getLsbD cfg.lcdcBgEnableBit = false := by decide

theorem witness_ResetLeavesMemoryAndFrameBufferAtTheConfiguredValues :
    deadAtReset.port = .reset :: [] ∧ (State.resetWith alternative).byteAt 0 = 0x00 ∧
    busRead alternative (State.resetWith alternative).mem 0 = 0xFF := ⟨rfl, rfl, rfl⟩

theorem witness_ThisHardwareIsTheBlockAtTheDefaults :
    readsConfiguration (.rd8 (.r8 .A)) = false ∧ readsConfiguration (.dget 159 143) = false := ⟨rfl, rfl⟩

/-- S4 with the mirror: `BWR 0xC000, 0xAA; BRD 0xE000; BWR 0xE000, 0x55; BRD 0xC000` give 0xAA and 0x55. -/
theorem witness_BusCommandsUnderEveryConfiguration :
    answerWith alternative (withCellsOf alternative [(0xC000, 0xAA)]) (.brd 0xE000) = gives (.byte 0xAA) ∧
    answerWith alternative (withCellsOf alternative [(0xC000, 0xAA), (0xE000, 0x55)]) (.brd 0xC000) =
      gives (.byte 0x55) ∧
    answerWith alternative (State.resetWith alternative) (.brd 0x1234) = gives (.byte 0xFF) ∧
    alternative.echoMirror = true ∧ Config.hardware.echoMirror = false ∧
    0xC000 ≤ (0xC000 : Word).toNat ∧ (0xDDFF : Word).toNat ≤ 0xDDFF ∧
    route alternative 0xE000 = route alternative 0xC000 ∧ route alternative 0xFDFF = route alternative 0xDDFF ∧
    route alternative 0xDE00 ≠ route alternative 0xFE00 := by decide

/-- The stride-1 column of the `TileAddr` table, and P5's remark on `LOW_ID_BASE_WHEN_CLEAR` = 0x9000. -/
theorem witness_TileCommandsUnderEveryConfiguration :
    [0, 1, 5, 127, 128, 133, 255].map (fun id => tileAddr { Config.hardware with tileStride := 1 } id 0x10) =
      [0x8000, 0x8001, 0x8005, 0x807F, 0x8800, 0x8805, 0x887F] ∧
    answerWith { Config.hardware with lowIdBaseWhenClear := 0x9000 } (withCells [(0xFF40, 0x08), (0x9010, 0xFF)])
      (.tget 1) = gives (.tile 0x5555) ∧
    answerWith alternative (State.resetWith alternative) (.tget 256) = aborts .tileIndexRange ∧
    (255 : Word).toNat ≤ 255 ∧ 255 < (256 : Word).toNat := by decide

end Sys2Proof.Tests
end

section
/-! SUPPORT. The flag byte bit by bit, what a step can do, and the commands that see the bus cells and the frame
buffer alone. -/

namespace Sys2Proof.Machine

/-! ### The flag byte -/

/-- The flags stand in bits 7 to 4 (R11). -/
theorem flagBit_bounds (f : Flag) : 4 ≤ flagBit f ∧ flagBit f ≤ 7 := by
  cases f <;> decide

/-- The bit that R105 clears is the flag's own. -/
theorem getLsbD_flagClearBit (f : Flag) (j : Nat) :
    (0x80#8 >>> f.code.toNat).getLsbD j = decide (j = flagBit f) := by
  by_cases hj : j < 8
  · interval_cases j <;> cases f <;> rfl
  · have := flagBit_bounds f
    rw [BitVec.getLsbD_of_ge _ _ (by omega), eq_comm, decide_eq_false (by omega)]

/-- The bit that R105 sets is the flag's own. -/
theorem getLsbD_flagSetBit (f : Flag) (b : Bool) (j : Nat) :
    ((BitVec.ofBool b).setWidth 8 <<< flagBit f).getLsbD j = (decide (j = flagBit f) && b) := by
  have hf := flagBit_bounds f
  by_cases hj : j = flagBit f
  · subst hj
    simp [show flagBit f < 8 by omega]
  · simp [BitVec.getLsbD_shiftLeft, hj]
    omega

/-- `FSET` bit by bit: the flag's bit takes the value given, every other bit stays (R105). -/
theorem getLsbD_withFlag (F : Byte) (f : Flag) (b : Bool) (j : Nat) :
    (withFlag F f b).getLsbD j = if j = flagBit f then b else F.getLsbD j := by
  rw [withFlag, BitVec.getLsbD_or, BitVec.getLsbD_and, BitVec.getLsbD_not, getLsbD_flagClearBit, getLsbD_flagSetBit]
  by_cases hj : j = flagBit f
  · simp [hj]
  · simpa [hj] using BitVec.lt_of_getLsbD

/-- A byte's low nibble is zero exactly when its bits 3 to 0 are. -/
theorem lowNibble_eq_zero_iff (F : Byte) : F &&& 0x0F = 0 ↔ ∀ j < 4, F.getLsbD j = false := by
  revert F
  decide

/-- The mask of every whole write clears the low nibble (R12). -/
theorem flagMask_lowNibble (v : Byte) : flagMask v &&& 0x0F = 0 := by
  rw [flagMask, BitVec.and_assoc]
  simp

/-- `FSET` leaves the low nibble as it was: zero, if it was zero. -/
theorem withFlag_lowNibble {F : Byte} (h : F &&& 0x0F = 0) (f : Flag) (b : Bool) :
    withFlag F f b &&& 0x0F = 0 := by
  rw [lowNibble_eq_zero_iff] at h ⊢
  intro j hj
  have := flagBit_bounds f
  rw [getLsbD_withFlag, if_neg (by omega), h j hj]

/-- A write of an 8-bit register changes `F` when it names `F`, and then masks (R101). -/
theorem State.set8_F (s : State) (r : Reg8) (v : Byte) :
    (s.set8 r v).F = if r = .F then flagMask v else s.F := by
  cases r <;> rfl

/-- A write of a 16-bit register changes `F` when it names `AF`, and then masks (R103). -/
theorem State.set16_F (s : State) (r : Reg16) (v : Word) :
    (s.set16 r v).F = if r = .AF then flagMask (lowByte v) else s.F := by
  cases r <;> rfl

theorem exec_wr8_r8 (s : State) (r : Reg8) (v : Byte) :
    exec (.wr8 (.r8 r) v) s = .next ((s.set8 r v).respond .none) := rfl

theorem exec_wr16_r16 (s : State) (r : Reg16) (v : Word) :
    exec (.wr16 (.r16 r) v) s = .next ((s.set16 r v).respond .none) := rfl

/-! ### What a step can do -/

/-- The step is the configured step at the defaults of R2. -/
theorem step_eq_stepWith (s : State) : step s = stepWith Config.hardware s := by
  rw [step, stepWith, show exec = execWith Config.hardware from funext₂ exec_eq_execWith]

/-- The inversion of the step: reset, nothing presented, a command executed, or an invalid word refused. -/
theorem stepWith_cases {cfg : Config} {s t : State} (h : stepWith cfg s = .next t) :
    (∃ rest, s.port = .reset :: rest ∧ t = State.powerOn cfg rest) ∨
    (s.aborted = none ∧ s.port = [] ∧ t = s) ∨
    (∃ w p rest i, s.aborted = none ∧ s.port = .command w p :: rest ∧ decode w p = .ok i ∧
      execWith cfg i { s with port := rest } = .next t) ∨
    (∃ w p rest e, s.aborted = none ∧ s.port = .command w p :: rest ∧ decode w p = .error e ∧
      t = State.abort { s with port := rest } .reservedEncoding) := by
  unfold stepWith at h
  rcases accept_cases cfg s with ⟨rest, hp, ha⟩ | ⟨c, -, -, ha⟩ | ⟨hn, hp, ha⟩ | ⟨w, p, rest, i, hn, hp, hd, ha⟩ |
    ⟨w, p, rest, e, hn, hp, hd, ha⟩ <;> rw [ha] at h
  · exact .inl ⟨rest, hp, (Host.Outcome.next.inj h).symm⟩
  · exact nomatch h
  · exact .inr (.inl ⟨hn, hp, (Host.Outcome.next.inj h).symm⟩)
  · exact .inr (.inr (.inl ⟨w, p, rest, i, hn, hp, hd, h⟩))
  · exact .inr (.inr (.inr ⟨w, p, rest, e, hn, hp, hd, (Host.Outcome.next.inj h).symm⟩))

/-! ### The low nibble of `F` along a run (R12) -/

/-- At reset, the low nibble of `F` is zero, under every configuration. -/
theorem State.powerOn_flagsMasked (cfg : Config) (inputs : List PortInput) :
    (State.powerOn cfg inputs).flagsMasked := by
  simp [State.flagsMasked]

/-- What a command writes keeps the low nibble of `F` zero: the three writers of `F` mask or leave it. -/
theorem Effect.flagsMasked {cfg : Config} {s s' : State} {i : Instr} (h : Effect cfg s i s')
    (hs : s.flagsMasked) : s'.flagsMasked := by
  unfold State.flagsMasked at hs ⊢
  cases h with
  | read => exact hs
  | wr8 r v =>
    rw [State.set8_F]
    split
    · exact flagMask_lowNibble v
    · exact hs
  | stepL m => rwa [State.stepL_F]
  | wr16 r v =>
    rw [State.set16_F]
    split
    · exact flagMask_lowNibble _
    · exact hs
  | fset f b => exact withFlag_lowNibble hs f b
  | imeset b => exact hs
  | hwset b => exact hs
  | bwr a v => exact hs
  | dset c x y p => exact hs
  | dupd => exact hs

theorem execWith_flagsMasked {cfg : Config} {i : Instr} {s t : State} (hs : s.flagsMasked)
    (h : execWith cfg i s = .next t) : t.flagsMasked := by
  obtain ⟨c, -, rfl⟩ | ⟨s', d, he, rfl⟩ := execWith_cases h
  · exact hs
  · exact he.flagsMasked hs

/-- Under every configuration, every step keeps the low nibble of `F` zero (R12). -/
theorem stepWith_flagsMasked {cfg : Config} {s t : State} (hs : s.flagsMasked) (h : stepWith cfg s = .next t) :
    t.flagsMasked := by
  obtain ⟨rest, -, rfl⟩ | ⟨-, -, rfl⟩ | ⟨w, p, rest, i, -, -, -, he⟩ | ⟨w, p, rest, e, -, -, -, rfl⟩ :=
    stepWith_cases h
  · exact State.powerOn_flagsMasked cfg rest
  · exact hs
  · exact execWith_flagsMasked (s := { s with port := rest }) hs he
  · exact hs

/-! ### The commands that see the bus cells and the frame buffer alone (R19) -/

/-- A command's meaning that reads the bus cells and the frame buffer alone, and, the response and the abort
latch apart, writes nothing else. -/
def SeesOnlyBusAndFrame (meaning : State → Host.Outcome State Fault Refusal) : Prop :=
  ∃ body : List Host.Cell → FrameBuffer → Except Cause (List Host.Cell × FrameBuffer × Data),
    ∀ s, meaning s = complete s ((body s.mem s.fb).map fun o => ({ s with mem := o.1, fb := o.2.1 }, o.2.2))

/-- The form of a command that passes a check of its operands before it reads or writes. -/
theorem seesOnlyBusAndFrame_checked {α : Type} (check : Except Cause α)
    (out : α → List Host.Cell → FrameBuffer → List Host.Cell × FrameBuffer × Data) :
    SeesOnlyBusAndFrame fun s => complete s (checked check fun a =>
      .ok ({ s with mem := (out a s.mem s.fb).1, fb := (out a s.mem s.fb).2.1 }, (out a s.mem s.fb).2.2)) := by
  refine ⟨fun m fb => check.map fun a => out a m fb, fun s => ?_⟩
  cases check <;> rfl

/-- Every command of the bus and tile/pixel families has that form, under every configuration. -/
theorem execWith_seesOnlyBusAndFrame (cfg : Config) {i : Instr} (h : inRegisterFileFamily i = false) :
    SeesOnlyBusAndFrame (execWith cfg i) := by
  cases i with
  | brd addr => exact ⟨fun m fb => .ok (m, fb, .byte (busRead cfg m addr)), fun _ => rfl⟩
  | bwr addr data => exact ⟨fun m fb => .ok (busWrite cfg m addr data, fb, .none), fun _ => rfl⟩
  | ldt => exact ⟨fun m fb => .ok (m, fb, tileList cfg m), fun _ => rfl⟩
  | tget id =>
    exact seesOnlyBusAndFrame_checked (checkTileId id) fun tile m fb =>
      (m, fb, .tile (packTile (tileAt cfg m tile (busRead cfg m cfg.addrLCDC))))
  | tln lo hi => exact ⟨fun m fb => .ok (m, fb, .tileLine (packLine (decodeLine lo hi))), fun _ => rfl⟩
  | til payload => exact ⟨fun m fb => .ok (m, fb, .tile (packTile (decodeTile (payloadBytes payload)))), fun _ => rfl⟩
  | dset color x y =>
    exact seesOnlyBusAndFrame_checked (checkPixel x y) fun p m fb =>
      (m, FrameBuffer.setPixel fb p.1 p.2 color, .none)
  | dget x y =>
    exact seesOnlyBusAndFrame_checked (checkPixel x y) fun p m fb => (m, fb, .color (FrameBuffer.pixel fb p.1 p.2))
  | dupd => exact ⟨fun m _ => .ok (m, frameOf cfg m, .none), fun _ => rfl⟩
  | bgw => exact ⟨fun m fb => .ok (m, fb, .window (windowOf cfg m)), fun _ => rfl⟩
  | _ => exact nomatch h

/-- A meaning of that form neither reads nor writes the Register File (R19). -/
theorem SeesOnlyBusAndFrame.ignores_registerFile {meaning : State → Host.Outcome State Fault Refusal}
    (hm : SeesOnlyBusAndFrame meaning) {s t : State} (r : State) (h : meaning s = .next t) :
    meaning (s.withRegisterFile r) = .next (t.withRegisterFile r) ∧ t = t.withRegisterFile s := by
  obtain ⟨body, hbody⟩ := hm
  have same : body (s.withRegisterFile r).mem (s.withRegisterFile r).fb = body s.mem s.fb := rfl
  rw [hbody] at h ⊢
  rw [same]
  cases hb : body s.mem s.fb with
  | ok o =>
    obtain rfl := Host.Outcome.next.inj (hb ▸ h)
    exact ⟨rfl, rfl⟩
  | error c =>
    obtain rfl := Host.Outcome.next.inj (hb ▸ h)
    exact ⟨rfl, rfl⟩

/-! ### The reset values read through flags and pairs (R30) -/

@[simp] theorem flagOf_zero (f : Flag) : flagOf 0 f = false := by
  simp [flagOf]

/-- After reset every pair, `SP` and `PC` read zero, under every configuration. -/
theorem State.resetWith_get16 (cfg : Config) (r : Reg16) : (State.resetWith cfg).get16 r = 0 := by
  cases r <;> simp [State.get16]

end Sys2Proof.Machine

namespace Sys2Proof.Proofs

open Sys2Proof.Machine

/-- Settles O21: `State.flagsMasked` holds at reset, `stepWith_flagsMasked` keeps it, and each write path of `F` is
its own equation. -/
theorem flagLowNibbleStaysZero : Obligations.FlagLowNibbleStaysZero := by
  refine ⟨State.powerOn_flagsMasked Config.hardware [], fun s t hs h => ?_, fun s v => ?_, fun s v => ?_, fun s f b => ?_⟩
  · exact stepWith_flagsMasked hs (step_eq_stepWith s ▸ h)
  · exact ⟨_, exec_wr8_r8 s .F v, State.set8_F s .F v⟩
  · exact ⟨_, exec_wr16_r16 s .AF v, State.set16_F s .AF v⟩
  · obtain ⟨hlow, hhigh⟩ := flagBit_bounds f
    refine ⟨_, exec_fset s f b, flagBit f, hlow, hhigh, fun j hj => ?_⟩
    exact (getLsbD_withFlag s.F f b j).trans (if_neg hj)

/-- Settles O22: a command of the other families sees the bus cells and the frame buffer alone. -/
theorem otherFamiliesIgnoreTheRegisterFile : Obligations.OtherFamiliesIgnoreTheRegisterFile := by
  intro i s r t hi h
  rw [exec_eq_execWith] at h ⊢
  exact (execWith_seesOnlyBusAndFrame Config.hardware hi).ignores_registerFile r h

/-- Settles O12, field by field from the reset state of R30 and R33. -/
theorem resetLeavesTheRegisterFileZero : Obligations.ResetLeavesTheRegisterFileZero := by
  refine ⟨?_, fun f => ?_, fun r => ?_, State.resetWith_aborted _⟩
  · simp [State.reset]
  · exact flagOf_zero f
  · exact State.resetWith_get16 _ r

end Sys2Proof.Proofs
end

section
/-! SUPPORT. The inverse of the address decoder, the mirror, and the span of the five parts of video RAM. -/

namespace Sys2Proof.Machine

/-! ### The address decoder -/

/-- Cell `i` of a region stands at its base plus `i`: the decoder is onto the cells of the twelve regions (R42). -/
theorem routeFixed_base_add {r : Region} {i : Nat} (h : i < r.size) : routeFixed (r.base + i) = (r, i) := by
  cases r <;> simp only [Region.base, Region.size, routeFixed] at h ⊢ <;> grind

/-- The decoder and its inverse: an address routes to cell `i` of `r` exactly when that cell exists and stands there. -/
theorem routeFixed_eq_iff {a : Nat} (h : a < 65536) {r : Region} {i : Nat} :
    routeFixed a = (r, i) ↔ i < r.size ∧ a = r.base + i := by
  constructor
  · intro e
    obtain ⟨hkey, hsize⟩ := routeFixed_spec h
    rw [e] at hkey hsize
    exact ⟨hsize, hkey.symm⟩
  · rintro ⟨hi, rfl⟩
    exact routeFixed_base_add hi

/-- The region whose range holds an address is the one it routes to, so no second range holds it. -/
theorem routeFixed_region {a : Nat} {r : Region} (hfirst : r.base ≤ a) (hlast : a < r.base + r.size) :
    (routeFixed a).1 = r := by
  obtain ⟨i, rfl⟩ := Nat.exists_eq_add_of_le hfirst
  rw [routeFixed_base_add (by omega)]

/-- Without a mirror the configured decoder is the fixed one. -/
theorem route_of_unmirrored {cfg : Config} (h : cfg.echoMirror = false) (a : Word) :
    route cfg a = routeFixed a.toNat := by
  simp [route, h]

/-- Below Echo the mirror changes nothing (R49). -/
theorem route_below_echo (cfg : Config) {a : Word} (h : a.toNat < 0xE000) : route cfg a = routeFixed a.toNat :=
  if_neg (by simp only [Bool.and_eq_true, decide_eq_true_eq]; omega)

/-- With the mirror an Echo address is decoded 0x2000 lower (R49). -/
theorem route_mirrored {cfg : Config} (hc : cfg.echoMirror = true) {a : Word} (hfirst : 0xE000 ≤ a.toNat)
    (hlast : a.toNat ≤ 0xFDFF) : route cfg a = routeFixed (a.toNat - 0x2000) :=
  if_pos (by simp [hc, hfirst, hlast])

/-- An address routes to video RAM exactly when it lies in 0x8000 to 0x9FFF (R41, R42). -/
theorem route_hardware_vram_iff (a : Word) :
    (∃ i, route Config.hardware a = (.vram, i)) ↔ 0x8000 ≤ a.toNat ∧ a.toNat ≤ 0x9FFF := by
  simp only [route_of_unmirrored (cfg := Config.hardware) rfl, routeFixed_eq_iff a.isLt, Region.base, Region.size]
  constructor
  · rintro ⟨i, hi, ha⟩
    omega
  · rintro ⟨hfirst, hlast⟩
    exact ⟨a.toNat - 0x8000, by omega, by omega⟩

/-! ### A write seen from another address -/

/-- A `BWR` to another address completes and leaves the byte of this one (R48). -/
theorem exec_bwr_byteAt_other (s : State) {a b : Word} (v : Byte) (h : b ≠ a) :
    ∃ t, exec (.bwr a v) s = .next t ∧ t.byteAt b = s.byteAt b :=
  ⟨_, exec_bwr s a v, busRead_busWrite_other s.mem v h⟩

/-! ### The five parts of video RAM -/

/-- A part holds the addresses from its first to its last (R43). -/
theorem vramPart_eq_some_iff (a : Word) (p : VramPart) :
    vramPart a = some p ↔ p.first ≤ a.toNat ∧ a.toNat ≤ p.last := by
  cases p <;> grind [vramPart, VramPart.first, VramPart.last]

/-- The five parts leave no gap between 0x8000 and 0x9FFF and reach no further (R43). -/
theorem exists_vramPart_iff (a : Word) : (∃ p, vramPart a = some p) ↔ 0x8000 ≤ a.toNat ∧ a.toNat ≤ 0x9FFF := by
  rw [← Option.isSome_iff_exists, vramPart]
  split_ifs <;> simp <;> omega

end Sys2Proof.Machine

namespace Sys2Proof.Proofs

open Sys2Proof.Machine

/-- Settles O38: routing inverts `cellKey`, so the region whose range holds an address is the one it routes to. -/
theorem routeIsTotalAndOneToOne : Obligations.RouteIsTotalAndOneToOne := by
  refine ⟨rfl, fun a => ?_, fun cfg a b hc e => ?_⟩
  · obtain ⟨hi, ha⟩ := (routeFixed_eq_iff a.isLt).1 (Prod.mk.eta (p := routeFixed a.toNat)).symm
    exact ⟨_, _, route_of_unmirrored rfl a, hi, ha, fun r' hfirst hlast => (routeFixed_region hfirst hlast).symm⟩
  · by_contra h
    exact route_ne hc h e

/-- Settles O39: a write changes its own cell alone; the address 0x2000 below an Echo address is below Echo. -/
theorem echoIsStorageOfItsOwn : Obligations.EchoIsStorageOfItsOwn := by
  refine ⟨fun s a b v _ ha hb _ => ?_, fun cfg a hc hfirst hlast => ?_, rfl⟩
  · have hne : b ≠ a := by
      rintro rfl
      omega
    exact ⟨exec_bwr_byteAt_other s v hne, exec_bwr_byteAt_other s v hne.symm⟩
  · have hsub : (a - 0x2000).toNat = a.toNat - 0x2000 := BitVec.toNat_sub_of_le (by bv_omega)
    rw [route_mirrored hc hfirst hlast, route_below_echo cfg (by omega), hsub]

/-- Settles O40: part and region are both membership in a range of addresses, and the parts' ranges fill video
RAM's. -/
theorem vramPartsPartitionVideoRam : Obligations.VramPartsPartitionVideoRam :=
  ⟨rfl, vramPart_eq_some_iff, fun a => (route_hardware_vram_iff a).trans (exists_vramPart_iff a).symm⟩

end Sys2Proof.Proofs
end

section
/-! SUPPORT. The decoder read through the opcode table (R90, R91): each row is the `op` and the must-be-zero bits of
one format, and `decode` picks the row of a word's `op` and checks the word against it. The packed line and tile,
field by field (R87). -/

namespace Sys2Proof

/-! ### Fields in their place -/

/-- Masking all of a field leaves the field in its place. -/
theorem and_place_allOnes (w : CmdWord) (lo n : Nat) :
    w &&& place lo (BitVec.allOnes n) = place lo (w.extractLsb' lo n) := by
  ext k hk
  rw [BitVec.getElem_and, getElem_place, getElem_place, BitVec.getLsbD_allOnes, BitVec.getLsbD_extractLsb']
  by_cases hlo : k < lo
  · simp [hlo]
  · simp [hlo, Nat.add_sub_cancel' (not_lt.1 hlo), ← BitVec.getLsbD_eq_getElem, Bool.and_comm]

/-- A placed value is read back from its place. -/
theorem extractLsb'_place {lo n : Nat} (v : BitVec n) (h : lo + n ≤ 32) : (place lo v).extractLsb' lo n = v := by
  ext j hj
  rw [BitVec.getElem_extractLsb', BitVec.getLsbD_eq_getElem (by omega), getElem_place]
  simp [hj]

/-- Below its place a placed value leaves zeros. -/
theorem extractLsb'_place_below {lo n lo' n' : Nat} (v : BitVec n') (h : lo + n ≤ lo') (h' : lo' ≤ 32) :
    (place lo' v).extractLsb' lo n = 0#n := by
  ext j hj
  rw [BitVec.getElem_extractLsb', BitVec.getLsbD_eq_getElem (by omega), getElem_place]
  simp [show lo + j < lo' by omega]

/-! ### The rows as formats -/

/-- The operation code that a row fixes (R71). -/
def OpcodeRow.op (row : OpcodeRow) : BitVec 8 := field row.pattern 31 24

/-- The row of a format that fixes `op` and `n` must-be-zero bits from bit `lo` on. -/
def OpcodeRow.ofFormat (mnemonic : String) (op : BitVec 8) (lo n : Nat) : OpcodeRow where
  mnemonic := mnemonic
  pattern := place 24 op
  mask := place 24 (BitVec.allOnes 8) ||| place lo (BitVec.allOnes n)

/-- The mask and match table fixes what the formats R73 to R82 fix. -/
theorem opcodeTable_eq_formats : opcodeTable =
    [ .ofFormat "RD8" 0x10 0 20, .ofFormat "WR8" 0x11 8 12, .ofFormat "RD16" 0x12 0 18, .ofFormat "WR16" 0x13 16 4,
      .ofFormat "FGET" 0x14 0 22, .ofFormat "FSET" 0x15 1 21, .ofFormat "IMEGET" 0x16 0 24,
      .ofFormat "IMESET" 0x17 1 23, .ofFormat "HWGET" 0x18 0 24, .ofFormat "HWSET" 0x19 1 23,
      .ofFormat "ICLS" 0x1A 8 16, .ofFormat "INTQ" 0x1B 0 24, .ofFormat "BRD" 0x20 0 8, .ofFormat "BWR" 0x21 0 0,
      .ofFormat "LDT" 0x22 0 24, .ofFormat "TGET" 0x23 16 8, .ofFormat "TLN" 0x30 0 8, .ofFormat "TIL" 0x31 0 24,
      .ofFormat "DSET" 0x32 18 6, .ofFormat "DGET" 0x33 16 8, .ofFormat "DUPD" 0x34 0 24,
      .ofFormat "BGW" 0x35 0 24 ] := by
  decide

@[simp] theorem OpcodeRow.ofFormat_op (mnemonic : String) (op : BitVec 8) (lo n : Nat) :
    (ofFormat mnemonic op lo n).op = op :=
  extractLsb'_place op (by decide)

/-- A word with the `op` of a format matches the format's row exactly when its must-be-zero bits are zero. -/
theorem matches_ofFormat_iff {w : CmdWord} {op : BitVec 8} (hop : field w 31 24 = op) (mnemonic : String)
    {lo n : Nat} (hn : lo + n ≤ 24) :
    w &&& (OpcodeRow.ofFormat mnemonic op lo n).mask = (OpcodeRow.ofFormat mnemonic op lo n).pattern ↔
      w.extractLsb' lo n = 0 := by
  have masked : w &&& (OpcodeRow.ofFormat mnemonic op lo n).mask = place 24 op ||| place lo (w.extractLsb' lo n) := by
    rw [OpcodeRow.ofFormat, BitVec.and_or_distrib_left, and_place_allOnes, and_place_allOnes, ← hop]
    rfl
  rw [masked, OpcodeRow.ofFormat]
  constructor
  · intro h
    have := congrArg (BitVec.extractLsb' lo n) h
    rwa [BitVec.extractLsb'_or, extractLsb'_place_below op hn (by decide), extractLsb'_place _ (by omega),
      BitVec.zero_or] at this
  · intro h
    simp [h, place]

/-! ### The table picks one row -/

/-- A word that matches a row has the row's operation code. -/
theorem op_of_matches {w : CmdWord} {row : OpcodeRow} (hrow : row ∈ opcodeTable) (h : w &&& row.mask = row.pattern) :
    field w 31 24 = row.op := by
  have fixesOp : ∀ row ∈ opcodeTable, field row.mask 31 24 = BitVec.allOnes 8 := by decide
  calc field w 31 24 = field w 31 24 &&& field row.mask 31 24 := by
        rw [fixesOp row hrow]
        exact BitVec.and_allOnes.symm
    _ = row.op := by
        rw [OpcodeRow.op, ← h]
        exact BitVec.extractLsb'_and.symm

/-- No two rows fix one operation code. -/
theorem row_eq_of_op_eq {row row' : OpcodeRow} (hrow : row ∈ opcodeTable) (hrow' : row' ∈ opcodeTable)
    (h : row.op = row'.op) : row = row' :=
  List.inj_on_of_nodup_map (f := OpcodeRow.op) (by decide) hrow hrow' h

/-! ### The decoder follows the table -/

/-- `answer` is what the row of `w`'s operation code allows: a command of the row's mnemonic, refused unless `w`
matches the row. -/
def FollowsRow (w : CmdWord) (answer : Except DecodeError Instr) : Prop :=
  ∃ row ∈ opcodeTable, field w 31 24 = row.op ∧
    ∃ i, i.mnemonic = row.mnemonic ∧ answer = ifZero (w &&& row.mask == row.pattern) i

/-- The check of a format's must-be-zero bits is the match with the format's row. -/
theorem followsRow_of_format {w : CmdWord} {op lo n : Nat} {zeros : Bool} {i : Instr}
    (hop : (field w 31 24).toNat = op) (hrow : .ofFormat i.mnemonic (BitVec.ofNat 8 op) lo n ∈ opcodeTable)
    (hn : lo + n ≤ 24) (hzeros : zeros = true ↔ w.extractLsb' lo n = 0) : FollowsRow w (ifZero zeros i) := by
  have hop' : field w 31 24 = BitVec.ofNat 8 op := by
    rw [← hop, BitVec.ofNat_toNat]
    exact (BitVec.setWidth_eq _).symm
  refine ⟨_, hrow, by rw [OpcodeRow.ofFormat_op, hop'], i, rfl, ?_⟩
  congr 1
  rw [Bool.eq_iff_iff, hzeros, beq_iff_eq, matches_ofFormat_iff hop' _ hn]

/-- Decoding by the table: the row of the word's operation code decides, and without one the word is `Invalid`. -/
theorem decode_followsRow_or_error (w : CmdWord) (p : Payload) :
    FollowsRow w (decode w p) ∨
      (∀ row ∈ opcodeTable, field w 31 24 ≠ row.op) ∧ decode w p = .error .reservedOp := by
  unfold decode
  split
  case h_14 hop => -- `BWR`, the one format without a must-be-zero bit
    exact .inl (followsRow_of_format (zeros := true) (lo := 0) (n := 0) hop
      (by simp [Instr.mnemonic, opcodeTable_eq_formats]) (by decide) (by simp))
  case h_23 =>
    refine .inr ⟨?_, rfl⟩
    simp_all [opcodeTable_eq_formats, ← BitVec.toNat_inj]
  all_goals
    rename_i hop
    exact .inl (followsRow_of_format hop (by simp [Instr.mnemonic, opcodeTable_eq_formats]) (by decide) beq_iff_eq)

/-- A word that decodes matches the row of its command's mnemonic. -/
theorem matches_of_decode_eq_ok {w : CmdWord} {p : Payload} {i : Instr} (h : decode w p = .ok i) :
    ∃ row ∈ opcodeTable, row.mnemonic = i.mnemonic ∧ w &&& row.mask = row.pattern := by
  obtain ⟨row, hrow, -, j, hj, hd⟩ | ⟨-, hd⟩ := decode_followsRow_or_error w p
  · obtain ⟨hmatch, rfl⟩ := ifZero_ok_iff.1 (hd.symm.trans h)
    exact ⟨row, hrow, hj.symm, beq_iff_eq.1 hmatch⟩
  · exact nomatch hd.symm.trans h

/-- A word that matches a row decodes to a command of the row's mnemonic. -/
theorem decode_eq_ok_of_matches {w : CmdWord} (p : Payload) {row : OpcodeRow} (hrow : row ∈ opcodeTable)
    (h : w &&& row.mask = row.pattern) : ∃ i, decode w p = .ok i ∧ i.mnemonic = row.mnemonic := by
  have hop := op_of_matches hrow h
  obtain ⟨row', hrow', hop', i, hi, hd⟩ | ⟨hnone, -⟩ := decode_followsRow_or_error w p
  · obtain rfl := row_eq_of_op_eq hrow' hrow (hop'.symm.trans hop)
    exact ⟨i, hd.trans (ifZero_ok_iff.2 ⟨beq_iff_eq.2 h, rfl⟩), hi⟩
  · exact absurd hop (hnone row hrow)

/-- A word that matches no row does not decode. -/
theorem decode_eq_error_of_no_match {w : CmdWord} (p : Payload)
    (h : ∀ row ∈ opcodeTable, w &&& row.mask ≠ row.pattern) : ∃ e, decode w p = .error e := by
  rcases hd : decode w p with e | i
  · exact ⟨e, rfl⟩
  · obtain ⟨row, hrow, -, hmatch⟩ := matches_of_decode_eq_ok hd
    exact absurd hmatch (h row hrow)

end Sys2Proof

namespace Sys2Proof.Machine

/-! ### An invalid word at the port -/

/-- A live block refuses a word that does not decode: the word is taken and the block aborts (R90, R182). -/
theorem step_of_decode_error {s : State} {w : CmdWord} {p : Payload} {rest : List PortInput} {e : DecodeError}
    (ha : s.aborted = none) (hp : s.port = .command w p :: rest) (hd : decode w p = .error e) :
    step s = .next (State.abort { s with port := rest } .reservedEncoding) := by
  simp [step, accept, ha, hp, hd]

/-! ### Packed lines and tiles -/

/-- Two bits from pixel `i`'s place in a packed line are the pixel (R87). -/
theorem extractLsb'_packLine (line : TileLine) (i : Fin 8) :
    (packLine line).extractLsb' (2 * (7 - i)) 2 = line.get i := by
  ext j hj
  rw [BitVec.getElem_extractLsb', getLsbD_packLine line i.isLt hj, BitVec.getLsbD_eq_getElem]
  rfl

/-- Sixteen bits from line `k`'s place in a packed tile are the packed line (R87). -/
theorem extractLsb'_packTile (tile : Tile) (k : Fin 8) :
    (packTile tile).extractLsb' (16 * k) 16 = packLine (tile.get k) := by
  ext j hj
  rw [BitVec.getElem_extractLsb', getLsbD_packTile tile k.isLt hj, BitVec.getLsbD_eq_getElem]
  rfl

/-- Bit `2p + j` of a packed decoded line is bit `j` of the pixel that bit `p` of the planes gives (R87). -/
theorem getLsbD_packLine_decodeLine (lo hi : Byte) {p j : Nat} (hp : p < 8) (hj : j < 2) :
    (packLine (decodeLine lo hi)).getLsbD (2 * p + j) =
      (BitVec.ofBool (hi.getLsbD p) ++ BitVec.ofBool (lo.getLsbD p)).getLsbD j := by
  have h := getLsbD_packLine (decodeLine lo hi) (i := 7 - p) (by omega) hj
  rwa [getElem_decodeLine, Nat.sub_sub_self (by omega)] at h

end Sys2Proof.Machine

namespace Sys2Proof.Proofs

open Sys2Proof.Machine

/-- Settles O5: the decoder follows the one row of the word's operation code, and a word of no row is refused. -/
theorem invalidWordsAreThoseOfNoRow : Obligations.InvalidWordsAreThoseOfNoRow := by
  refine ⟨fun w p i => matches_of_decode_eq_ok, fun w p row => decode_eq_ok_of_matches p,
    fun w row hrow row' hrow' h h' => ?_, fun s w p rest ha hp hnone => ?_⟩
  · exact row_eq_of_op_eq hrow hrow' ((op_of_matches hrow h).symm.trans (op_of_matches hrow' h'))
  · obtain ⟨e, hd⟩ := decode_eq_error_of_no_match p hnone
    exact step_of_decode_error ha hp hd

/-- Settles O50: each pixel and each line in its place, and a decoded line's pixels are its planes' bits. -/
theorem packingFollowsTheLayout : Obligations.PackingFollowsTheLayout := by
  refine ⟨extractLsb'_packLine, fun lo hi p hp => ⟨?_, ?_⟩, extractLsb'_packTile⟩
  · rw [getLsbD_packLine_decodeLine lo hi hp (by decide), BitVec.getLsbD_append]
    simp
  · rw [← Nat.add_zero (2 * p), getLsbD_packLine_decodeLine lo hi hp (by decide), BitVec.getLsbD_append]
    simp

/-- Settles O2: the three tables by evaluation at each code, the inverses by the laws of the codes. -/
theorem operandCodesFollowTheTables : Obligations.OperandCodesFollowTheTables :=
  ⟨rfl, rfl, rfl, Sel.code_ofCode, Mode.code_ofCode, Flag.code_ofCode, fun _ => rfl⟩

end Sys2Proof.Proofs
end

section
/-! SUPPORT. The command words of the Register File family as their fields side by side (R74, R75, R77), and what its
twelve commands answer (R100 to R111). -/

namespace Sys2Proof

/-! ### Command words, field by field

Each word is stated for every value of its format's must-be-zero field, which alone decides whether it is `Invalid`
(R90). The proofs cut every field that `decode` reads out of the part of the word it lies in. -/

theorem decode_rd8_word (code : BitVec 4) (zeros : BitVec 20) (p : Payload) :
    decode (0x10#8 ++ code ++ zeros) p = ifZero (zeros == 0) (.rd8 (.ofCode code)) := by
  simp (disch := decide) only [decode, field, BitVec.extractLsb'_append_eq_of_le,
    BitVec.extractLsb'_append_eq_of_add_le]
  simp

theorem decode_wr8_word (code : BitVec 4) (zeros : BitVec 12) (v : Byte) (p : Payload) :
    decode (0x11#8 ++ code ++ zeros ++ v) p = ifZero (zeros == 0) (.wr8 (.ofCode code) v) := by
  simp (disch := decide) only [decode, field, BitVec.extractLsb'_append_eq_of_le,
    BitVec.extractLsb'_append_eq_of_add_le]
  simp

theorem decode_rd16_word (code : BitVec 4) (mode : BitVec 2) (zeros : BitVec 18) (p : Payload) :
    decode (0x12#8 ++ code ++ mode ++ zeros) p =
      ifZero (zeros == 0) (.rd16 (.ofCode code) (.ofCode mode)) := by
  simp (disch := decide) only [decode, field, BitVec.extractLsb'_append_eq_of_le,
    BitVec.extractLsb'_append_eq_of_add_le]
  simp

theorem decode_wr16_word (code zeros : BitVec 4) (v : Word) (p : Payload) :
    decode (0x13#8 ++ code ++ zeros ++ v) p = ifZero (zeros == 0) (.wr16 (.ofCode code) v) := by
  simp (disch := decide) only [decode, field, BitVec.extractLsb'_append_eq_of_le,
    BitVec.extractLsb'_append_eq_of_add_le]
  simp

theorem decode_fget_word (code : BitVec 2) (zeros : BitVec 22) (p : Payload) :
    decode (0x14#8 ++ code ++ zeros) p = ifZero (zeros == 0) (.fget (.ofCode code)) := by
  simp (disch := decide) only [decode, field, BitVec.extractLsb'_append_eq_of_le,
    BitVec.extractLsb'_append_eq_of_add_le]
  simp

theorem decode_fset_word (code : BitVec 2) (zeros : BitVec 21) (b : Bool) (p : Payload) :
    decode (0x15#8 ++ code ++ zeros ++ BitVec.ofBool b) p = ifZero (zeros == 0) (.fset (.ofCode code) b) := by
  simp (disch := decide) only [decode, field, BitVec.extractLsb'_append_eq_of_le,
    BitVec.extractLsb'_append_eq_of_add_le, BitVec.getLsbD_append]
  simp

theorem decode_icls_word (zeros : BitVec 16) (v : Byte) (p : Payload) :
    decode (0x1A#8 ++ zeros ++ v) p = ifZero (zeros == 0) (.icls v) := by
  simp (disch := decide) only [decode, field, BitVec.extractLsb'_append_eq_of_le,
    BitVec.extractLsb'_append_eq_of_add_le]
  simp

/-- The must-be-zero field of `WR16` holds the `mode` bits (R74, R85), so a word that fills them is `Invalid`. -/
theorem decode_wr16_word_of_mode (code : BitVec 4) {mode : BitVec 2} (h : mode ≠ 0) (v : Word) (p : Payload) :
    decode (0x13#8 ++ code ++ mode ++ 0#2 ++ v) p = .error .mustBeZero := by
  have regroup : 0x13#8 ++ code ++ mode ++ 0#2 = 0x13#8 ++ code ++ (mode ++ 0#2) := BitVec.append_assoc
  have nonzero : ∀ mode : BitVec 2, mode ≠ 0 → mode ++ 0#2 ≠ 0#4 := by decide
  rw [regroup, decode_wr16_word]
  exact congrArg (ifZero · _) (beq_false_of_ne (nonzero mode h))

end Sys2Proof

namespace Sys2Proof.Machine

/-! ### The commands with a selector -/

theorem checkSel8_reserved {reg : Sel} (h : reg = .reserved14 ∨ reg = .reserved15) :
    checkSel8 reg = .error .reservedEncoding := by
  rcases h with rfl | rfl <;> rfl

theorem checkSel16_reserved {reg : Sel} (h : reg = .reserved14 ∨ reg = .reserved15) :
    checkSel16 reg = .error .reservedEncoding := by
  rcases h with rfl | rfl <;> rfl

/-- Mode 3, and a mode that steps where the selector is not `HL`, are reserved (R102). -/
theorem checkMode_error {r : Reg16} {m : Mode} (h : m = .reserved ∨ (m ≠ .normal ∧ r ≠ .HL)) :
    checkMode r m = .error .reservedEncoding := by
  rcases h with rfl | ⟨hm, hr⟩
  · rfl
  · cases m with
    | normal => exact absurd rfl hm
    | increment => exact if_neg hr
    | decrement => exact if_neg hr
    | reserved => rfl

theorem exec_rd8_r8 (s : State) (r : Reg8) : exec (.rd8 (.r8 r)) s = .next (s.respond (.byte (s.get8 r))) := rfl

/-- `RD16` of a mode that passes its check responds with the pair as it was, in the state where `L` has stepped. -/
theorem exec_rd16_r16 (s : State) {r : Reg16} {m m' : Mode} (h : checkMode r m = .ok m') :
    exec (.rd16 (.r16 r) m) s = .next ((s.stepL m').respond (.word (s.get16 r))) := by
  simp [exec, execRd16, h]

theorem exec_rd8_abort (s : State) {reg : Sel} {c : Cause} (h : checkSel8 reg = .error c) :
    exec (.rd8 reg) s = .next (s.abort c) := by
  simp [exec, execRd8, h]

theorem exec_wr8_abort (s : State) {reg : Sel} {c : Cause} (v : Byte) (h : checkSel8 reg = .error c) :
    exec (.wr8 reg v) s = .next (s.abort c) := by
  simp [exec, execWr8, h]

theorem exec_rd16_abort (s : State) {reg : Sel} {c : Cause} (m : Mode) (h : checkSel16 reg = .error c) :
    exec (.rd16 reg m) s = .next (s.abort c) := by
  simp [exec, execRd16, h]

theorem exec_rd16_abort_mode (s : State) {r : Reg16} {m : Mode} {c : Cause} (h : checkMode r m = .error c) :
    exec (.rd16 (.r16 r) m) s = .next (s.abort c) := by
  simp [exec, execRd16, h]

theorem exec_wr16_abort (s : State) {reg : Sel} {c : Cause} (v : Word) (h : checkSel16 reg = .error c) :
    exec (.wr16 reg v) s = .next (s.abort c) := by
  simp [exec, execWr16, h]

/-! ### Flags and lines -/

/-- The mask of a whole write keeps all four flags (R101). -/
theorem flagOf_flagMask (v : Byte) (f : Flag) : flagOf (flagMask v) f = v.getLsbD (flagBit f) := by
  have kept : (0xF0 : Byte).getLsbD (flagBit f) = true := by cases f <;> rfl
  rw [flagOf, flagMask, BitVec.getLsbD_and, kept, Bool.and_true]

/-- The low nibble of a pair is that of its low register. -/
theorem append_lowNibble (hi : Byte) {lo : Byte} (h : lo &&& 0x0F = 0) : (hi ++ lo : Word) &&& 0x000F = 0 := by
  have halves : (hi ++ lo : Word) &&& 0x000F = (hi &&& 0x00#8) ++ (lo &&& 0x0F#8) :=
    BitVec.and_append (x₂ := 0x00#8) (y₂ := 0x0F#8)
  rw [halves, BitVec.and_zero]
  exact congrArg (0x00#8 ++ ·) h

/-- The ten lines of this hardware's `INTQ`: bits 4 to 0 of the byte at `IF` above those of the byte at `IE`. -/
theorem interruptQuery_hardware (s : State) : interruptQuery Config.hardware s.mem =
    (s.byteAt 0xFF0F).extractLsb' 0 5 ++ (s.byteAt 0xFFFF).extractLsb' 0 5 := by
  rw [interruptQuery, pack_classify, pack_classify, Config.hardware_addrIF, Config.hardware_addrIE]
  rfl

/-- `ICLS` answers bits 4 to 0 of its byte (R110). -/
theorem exec_icls_lines (s : State) (v : Byte) :
    exec (.icls v) s = .next (s.respond (.lines (v.extractLsb' 0 5))) := by
  rw [exec_icls, pack_classify]

/-- `INTQ` answers the two bytes' lines side by side (R111). -/
theorem exec_intq_lines (s : State) : exec .intq s = .next (s.respond
    (.linePair ((s.byteAt 0xFF0F).extractLsb' 0 5 ++ (s.byteAt 0xFFFF).extractLsb' 0 5))) := by
  rw [exec_intq, interruptQuery_hardware]

end Sys2Proof.Machine

namespace Sys2Proof.Proofs

open Sys2Proof.Machine

/-- Settles O30: each selector and mode by what the two checks answer, `L` stepped by `State.stepL`. -/
theorem rd16ReadsThePairAndStepsL : Obligations.Rd16ReadsThePairAndStepsL := by
  refine ⟨fun s => ?_, fun s r m => ?_, fun s reg m h => ?_, fun s r m h => ?_, fun code mode p => ?_,
    fun s h => ?_⟩
  · have normal (r : Reg16) := exec_rd16_r16 s (checkMode_normal r)
    exact ⟨normal .AF, normal .BC, normal .DE, normal .HL, normal .SP, normal .PC,
      exec_rd16_r16 s (checkMode_increment .HL), exec_rd16_r16 s (checkMode_decrement .HL)⟩
  · exact exec_rd16_abort s m (checkSel16_r8 r)
  · exact exec_rd16_abort s m (checkSel16_reserved h)
  · exact exec_rd16_abort_mode s (checkMode_error h)
  · exact decode_rd16_word code mode 0 p
  · exact ⟨_, _, exec_rd16_r16 s (checkMode_normal .AF), rfl, append_lowNibble s.A h⟩

/-- Settles O31: `State.set16` of each selector, and the `mode` bits as part of the must-be-zero field. -/
theorem wr16WritesThePair : Obligations.Wr16WritesThePair := by
  refine ⟨fun s v => ?_, fun s r v => ?_, fun s reg v h => ?_, fun code v p => ?_, fun code mode v p h => ?_⟩
  · have write (r : Reg16) := exec_wr16_r16 s r v
    exact ⟨write .AF, write .BC, write .DE, write .HL, write .SP, write .PC⟩
  · exact exec_wr16_abort s v (checkSel16_r8 r)
  · exact exec_wr16_abort s v (checkSel16_reserved h)
  · exact decode_wr16_word code 0 v p
  · exact decode_wr16_word_of_mode code h v p

/-- Settles O33: the new `F` is `withFlag`, read bit by bit. -/
theorem fsetWritesOneFlag : Obligations.FsetWritesOneFlag := by
  refine ⟨fun s f b => ⟨_, exec_fset s f b, ?_, fun j hj => ?_⟩, fun code b p => ?_⟩
  · exact (getLsbD_withFlag s.F f b _).trans (if_pos rfl)
  · exact (getLsbD_withFlag s.F f b j).trans (if_neg hj)
  · exact decode_fset_word code 0 b p

/-- Settles O36: the lines of `INTQ` are those that `ICLS` answers for the two bytes. -/
theorem intqReturnsBothDecompositions : Obligations.IntqReturnsBothDecompositions := by
  refine ⟨exec_intq_lines, fun s => ⟨_, _, ?_, ?_, exec_intq_lines s⟩, fun _ => rfl⟩
  · exact exec_icls_lines s _
  · exact exec_icls_lines s _

/-- Settles O28: `State.get8` of each selector, and what the selector check answers for the others. -/
theorem rd8ReadsTheNamedRegister : Obligations.Rd8ReadsTheNamedRegister := by
  refine ⟨fun s => ?_, fun s r => ?_, fun s reg h => ?_, fun code p => ?_, fun s h => ?_⟩
  · have read (r : Reg8) := exec_rd8_r8 s r
    exact ⟨read .A, read .F, read .B, read .C, read .D, read .E, read .H, read .L⟩
  · exact exec_rd8_abort s (checkSel8_r16 r)
  · exact exec_rd8_abort s (checkSel8_reserved h)
  · exact decode_rd8_word code 0 p
  · exact ⟨_, _, exec_rd8_r8 s .F, rfl, h⟩

/-- Settles O29: `State.set8` of each selector; the mask of `F` keeps each flag's own bit. -/
theorem wr8WritesTheNamedRegister : Obligations.Wr8WritesTheNamedRegister := by
  refine ⟨fun s v => ?_, fun s v f => ?_, fun s r v => ?_, fun s reg v h => ?_, fun code v p => ?_⟩
  · have write (r : Reg8) := exec_wr8_r8 s r v
    exact ⟨write .A, write .F, write .B, write .C, write .D, write .E, write .H, write .L⟩
  · exact ⟨_, exec_wr8_r8 s .F v, flagOf_flagMask v f⟩
  · exact exec_wr8_abort s v (checkSel8_r16 r)
  · exact exec_wr8_abort s v (checkSel8_reserved h)
  · exact decode_wr8_word code 0 v p

/-- Settles O32: `flagOf` of each flag. -/
theorem fgetReadsOneFlag : Obligations.FgetReadsOneFlag :=
  ⟨fun s => ⟨exec_fget s .Z, exec_fget s .N, exec_fget s .H, exec_fget s .C⟩,
    fun code p => decode_fget_word code 0 p⟩

/-- Settles O34: the four commands' own equations, and the six words by evaluation. -/
theorem latchesAreReadAndWrittenPlainly : Obligations.LatchesAreReadAndWrittenPlainly :=
  ⟨exec_imeget, exec_imeset, exec_hwget, exec_hwset, fun _ => ⟨rfl, rfl, rfl, rfl, rfl, rfl⟩⟩

/-- Settles O35: `classify` is the byte's own bits, and its packing their order. -/
theorem iclsClassifiesTheByte : Obligations.IclsClassifiesTheByte :=
  ⟨exec_icls_lines, fun _ => rfl, fun v p => decode_icls_word 0 v p⟩

end Sys2Proof.Proofs
end

section
/-! SUPPORT. The command words of the Memory Bus family as their fields side by side (R78, R79), where `TileAddr` puts
a tile's bytes (R130), and what `LDT` and `TGET` answer (R133, R134). -/

namespace Sys2Proof

/-! ### Command words, field by field -/

theorem decode_brd_word (a : Word) (zeros : BitVec 8) (p : Payload) :
    decode (0x20#8 ++ a ++ zeros) p = ifZero (zeros == 0) (.brd a) := by
  simp (disch := decide) only [decode, field, BitVec.extractLsb'_append_eq_of_le,
    BitVec.extractLsb'_append_eq_of_add_le]
  simp

theorem decode_bwr_word (a : Word) (v : Byte) (p : Payload) : decode (0x21#8 ++ a ++ v) p = .ok (.bwr a v) := by
  simp (disch := decide) only [decode, field, BitVec.extractLsb'_append_eq_of_le,
    BitVec.extractLsb'_append_eq_of_add_le]
  simp

theorem decode_tget_word (zeros : BitVec 8) (id : Word) (p : Payload) :
    decode (0x23#8 ++ zeros ++ id) p = ifZero (zeros == 0) (.tget id) := by
  simp (disch := decide) only [decode, field, BitVec.extractLsb'_append_eq_of_le,
    BitVec.extractLsb'_append_eq_of_add_le]
  simp

end Sys2Proof

namespace Sys2Proof.Machine

/-! ### Where a tile stands -/

/-- The identifier's half of the domain and the tile-data bit choose the base, and the stride the slot (R130). -/
theorem tileAddr_eq_ofNat (cfg : Config) (id lcdc : Byte) : tileAddr cfg id lcdc =
    BitVec.ofNat 16 (if 128 ≤ id.toNat then 0x8800 + (id.toNat - 128) * cfg.tileStride
      else if lcdc.getLsbD cfg.lcdcTileDataBit then 0x8000 + id.toNat * cfg.tileStride
      else cfg.lowIdBaseWhenClear.toNat + id.toNat * cfg.tileStride) := by
  rw [tileAddr, apply_ite (BitVec.ofNat 16), apply_ite (BitVec.ofNat 16)]

/-- On this hardware the sixteen bytes of every tile stand in blocks 0 and 1 of video RAM (R130, R43). -/
theorem tileAddr_hardware_add_bounds (id lcdc : Byte) {k : Nat} (hk : k < 16) :
    0x8000 ≤ (tileAddr Config.hardware id lcdc + BitVec.ofNat 16 k).toNat ∧
    (tileAddr Config.hardware id lcdc + BitVec.ofNat 16 k).toNat ≤ 0x8FFF := by
  have hid := id.isLt
  have hlow : Config.hardware.lowIdBaseWhenClear.toNat = 0x8800 := rfl
  rw [tileAddr_eq_ofNat, ← BitVec.ofNat_add, BitVec.toNat_ofNat, hlow, Config.hardware_tileStride]
  split_ifs <;> omega

/-- Line `k` of the tile of an identifier, from bytes `2k` and `2k + 1` at its address (R135, R151), packed (R87). -/
theorem extractLsb'_packTile_tileAt (cfg : Config) (m : List Host.Cell) (id lcdc : Byte) {k : Nat} (hk : k < 8) :
    (packTile (tileAt cfg m id lcdc)).extractLsb' (16 * k) 16 = packLine (decodeLine
      (busRead cfg m (tileAddr cfg id lcdc + BitVec.ofNat 16 (2 * k)))
      (busRead cfg m (tileAddr cfg id lcdc + BitVec.ofNat 16 (2 * k + 1)))) := by
  rw [extractLsb'_packTile _ ⟨k, hk⟩, Vector.get_eq_getElem, tileAt, getElem_decodeTile _ _ hk, getElem_tileBytes,
    getElem_tileBytes]

/-! ### `TGET` -/

theorem exec_tget (s : State) {id : Word} (h : id.toNat ≤ 255) : exec (.tget id) s = .next (s.respond (.tile
    (packTile (tileAt Config.hardware s.mem (id.setWidth 8) (s.byteAt Config.hardware.addrLCDC))))) := by
  rw [exec_eq_execWith]
  exact execWith_tget Config.hardware s h

/-- An identifier above 255 is refused under every configuration (R134). -/
theorem execWith_tget_abort (cfg : Config) (s : State) {id : Word} (h : 255 < id.toNat) :
    execWith cfg (.tget id) s = .next (s.abort .tileIndexRange) := by
  simp [execWith, execTgetWith, checkTileId_error h]

theorem exec_tget_abort (s : State) {id : Word} (h : 255 < id.toNat) :
    exec (.tget id) s = .next (s.abort .tileIndexRange) := by
  rw [exec_eq_execWith, execWith_tget_abort _ s h]

/-! ### `LDT` -/

/-- The identifiers whose tiles `LDT` lists, ascending: those with a byte that is not zero (R133). -/
def nonBlankIds (cfg : Config) (m : List Host.Cell) (lcdc : Byte) : List Byte :=
  ((List.range 256).map (BitVec.ofNat 8)).filter fun id => (List.range 16).any fun k =>
    busRead cfg m (tileAddr cfg id lcdc + BitVec.ofNat 16 k) != 0

theorem mem_nonBlankIds_iff {cfg : Config} {m : List Host.Cell} {lcdc id : Byte} :
    id ∈ nonBlankIds cfg m lcdc ↔ ∃ k < 16, busRead cfg m (tileAddr cfg id lcdc + BitVec.ofNat 16 k) ≠ 0 := by
  have listed : id ∈ (List.range 256).map (BitVec.ofNat 8) :=
    List.mem_map.2 ⟨id.toNat, List.mem_range.2 id.isLt, by simp⟩
  simp only [nonBlankIds, List.mem_filter, listed, true_and, List.any_eq_true, List.mem_range, bne_iff_ne]

theorem length_nonBlankIds_le (cfg : Config) (m : List Host.Cell) (lcdc : Byte) :
    (nonBlankIds cfg m lcdc).length ≤ 256 := by
  refine (List.length_filter_le _ _).trans ?_
  rw [List.length_map, List.length_range]

/-- The response of `LDT`: how many identifiers are not blank, and the tile of each (R133). -/
theorem tileList_eq_nonBlankIds (cfg : Config) (m : List Host.Cell) :
    tileList cfg m = .tiles (BitVec.ofNat 9 (nonBlankIds cfg m (busRead cfg m cfg.addrLCDC)).length)
      ((nonBlankIds cfg m (busRead cfg m cfg.addrLCDC)).map
        fun id => packTile (tileAt cfg m id (busRead cfg m cfg.addrLCDC))) := by
  have tiles : loadTiles cfg m = (nonBlankIds cfg m (busRead cfg m cfg.addrLCDC)).map
      fun id => tileAt cfg m id (busRead cfg m cfg.addrLCDC) := by
    simp only [loadTiles_eq, blankTile_tileBytes, Bool.not_not, nonBlankIds]
  simp [tileList, tiles]

/-- With no byte of video RAM set, this hardware's `LDT` lists no tile (R133 (a)). -/
theorem tileList_hardware_of_zero_vram {m : List Host.Cell}
    (h : ∀ a : Word, 0x8000 ≤ a.toNat → a.toNat ≤ 0x9FFF → busRead Config.hardware m a = 0) :
    tileList Config.hardware m = .tiles 0 [] := by
  have noIds (lcdc : Byte) : nonBlankIds Config.hardware m lcdc = [] := by
    refine List.eq_nil_iff_forall_not_mem.2 fun id hid => ?_
    obtain ⟨k, hk, hbyte⟩ := mem_nonBlankIds_iff.1 hid
    obtain ⟨hfirst, hlast⟩ := tileAddr_hardware_add_bounds id lcdc hk
    exact hbyte (h _ hfirst (hlast.trans (by decide)))
  rw [tileList_eq_nonBlankIds, noIds]
  rfl

/-- `LDT` sees the LCD-control byte and the bytes of each tile, and nothing else (R133 (e)). -/
theorem tileList_congr {cfg : Config} {m m' : List Host.Cell}
    (hlcdc : busRead cfg m' cfg.addrLCDC = busRead cfg m cfg.addrLCDC)
    (hbytes : ∀ id lcdc, tileBytes cfg m' id lcdc = tileBytes cfg m id lcdc) : tileList cfg m' = tileList cfg m := by
  simp only [tileList, loadTiles, hlcdc, hbytes]

/-- This hardware's tiles depend on blocks 0 and 1 of video RAM alone. -/
theorem tileBytes_hardware_congr {m m' : List Host.Cell}
    (h : ∀ a : Word, 0x8000 ≤ a.toNat → a.toNat ≤ 0x8FFF → busRead Config.hardware m' a = busRead Config.hardware m a)
    (id lcdc : Byte) : tileBytes Config.hardware m' id lcdc = tileBytes Config.hardware m id lcdc := by
  ext k hk : 1
  obtain ⟨hfirst, hlast⟩ := tileAddr_hardware_add_bounds id lcdc hk
  rw [getElem_tileBytes, getElem_tileBytes, h _ hfirst hlast]

end Sys2Proof.Machine

namespace Sys2Proof.Proofs

open Sys2Proof.Machine

/-- Settles O42: the write's own address reads back `v`, and every other address is another cell. -/
theorem bwrWritesTheCellAlone : Obligations.BwrWritesTheCellAlone := by
  refine ⟨fun s a v => ⟨_, exec_bwr s a v, ?_, fun b hb => ?_⟩, decode_bwr_word⟩
  · rw [← busRead_hardware, busRead_busWrite_same]
  · rw [← busRead_hardware, ← busRead_hardware, busRead_busWrite_other s.mem v hb]

/-- Settles O46: the tiles listed are those of `nonBlankIds`, and every tile's bytes lie in blocks 0 and 1. -/
theorem ldtListsTheNonBlankTiles : Obligations.LdtListsTheNonBlankTiles := by
  refine ⟨fun s => ?_, fun s hzero => ?_, fun s t d hlcdc hbytes h => ?_, fun _ => rfl⟩
  · refine ⟨_, nonBlankIds Config.hardware s.mem _, rfl, rfl, ?_, length_nonBlankIds_le _ _ _,
      fun id k hk hbyte => mem_nonBlankIds_iff.2 ⟨k, hk, hbyte⟩⟩
    rw [exec_ldt, tileList_eq_nonBlankIds]
    rfl
  · rw [exec_ldt, tileList_hardware_of_zero_vram hzero]
    rfl
  · obtain rfl : tileList Config.hardware s.mem = d := by simpa [exec_ldt, State.respond] using h
    rw [exec_ldt, tileList_congr hlcdc (tileBytes_hardware_congr hbytes)]
    rfl

/-- Settles O48: the tile of `TileAt` line by line, and the identifier's check. -/
theorem tgetDecodesOneTile : Obligations.TgetDecodesOneTile := by
  refine ⟨fun s id hid => ⟨_, exec_tget s hid, fun k hk => ?_⟩, fun s id hid => ?_, fun id p => ?_⟩
  · exact extractLsb'_packTile_tileAt Config.hardware s.mem _ _ hk
  · exact exec_tget_abort s hid
  · exact decode_tget_word 0 id p

/-- Settles O41: without a mirror the cell of an address is keyed by the address. -/
theorem brdReadsTheCell : Obligations.BrdReadsTheCell :=
  ⟨exec_brd, fun s a => busRead_hardware s.mem a, fun a p => decode_brd_word a 0 p⟩

/-- Settles O44: the three places of R130 as one formula, and the abort of the one command that can present an
identifier outside its domain. -/
theorem tileAddrPlacesTheTile : Obligations.TileAddrPlacesTheTile :=
  ⟨tileAddr_eq_ofNat, fun s _ hid => exec_tget_abort s hid⟩

end Sys2Proof.Proofs
end

section
/-! SUPPORT. The command words of the Tile/Pixel family as their fields side by side (R81, R82), a decoded line's planes
read back (R150), the checks of `DSET` and `DGET` (R155, R156), and the background's colour at a place (R152, R157). -/

namespace Sys2Proof

/-! ### Command words, field by field -/

theorem decode_tln_word (lo hi zeros : Byte) (p : Payload) :
    decode (0x30#8 ++ lo ++ hi ++ zeros) p = ifZero (zeros == 0) (.tln lo hi) := by
  simp (disch := decide) only [decode, field, BitVec.extractLsb'_append_eq_of_le,
    BitVec.extractLsb'_append_eq_of_add_le]
  simp

theorem decode_dset_word (zeros : BitVec 6) (c : Color) (x y : Byte) (p : Payload) :
    decode (0x32#8 ++ zeros ++ c ++ x ++ y) p = ifZero (zeros == 0) (.dset c x y) := by
  simp (disch := decide) only [decode, field, BitVec.extractLsb'_append_eq_of_le,
    BitVec.extractLsb'_append_eq_of_add_le]
  simp

theorem decode_dget_word (zeros x y : Byte) (p : Payload) :
    decode (0x33#8 ++ zeros ++ x ++ y) p = ifZero (zeros == 0) (.dget x y) := by
  simp (disch := decide) only [decode, field, BitVec.extractLsb'_append_eq_of_le,
    BitVec.extractLsb'_append_eq_of_add_le]
  simp

end Sys2Proof

namespace Sys2Proof.Machine

/-! ### The planes of a decoded line -/

/-- A pixel's two plane bits are read back from its colour. -/
theorem ofBool_append_inj {h l h' l' : Bool} :
    BitVec.ofBool h ++ BitVec.ofBool l = BitVec.ofBool h' ++ BitVec.ofBool l' ↔ h = h' ∧ l = l' := by
  revert h l h' l'
  decide

/-- The pixel that bit `p` of the two planes gives (R150). -/
theorem getElem_decodeLine_of_bit (lo hi : Byte) {p : Nat} (hp : p < 8) :
    (decodeLine lo hi)[7 - p] = BitVec.ofBool (hi.getLsbD p) ++ BitVec.ofBool (lo.getLsbD p) := by
  rw [getElem_decodeLine, Nat.sub_sub_self (by omega)]

/-- Both planes are read back from the line they give (R150). -/
theorem decodeLine_inj {lo hi lo' hi' : Byte} (h : decodeLine lo hi = decodeLine lo' hi') : lo = lo' ∧ hi = hi' := by
  have bits (p : Nat) (hp : p < 8) : hi.getLsbD p = hi'.getLsbD p ∧ lo.getLsbD p = lo'.getLsbD p := by
    rw [← ofBool_append_inj, ← getElem_decodeLine_of_bit lo hi hp, ← getElem_decodeLine_of_bit lo' hi' hp, h]
  exact ⟨BitVec.eq_of_getLsbD_eq fun p hp => (bits p hp).2, BitVec.eq_of_getLsbD_eq fun p hp => (bits p hp).1⟩

/-- Bits `2p + 1` and `2p` of a packed decoded line are bit `p` of the two planes (R87). -/
theorem packLine_decodeLine_planes (lo hi : Byte) {p : Nat} (hp : p < 8) :
    (packLine (decodeLine lo hi)).getLsbD (2 * p + 1) = hi.getLsbD p ∧
      (packLine (decodeLine lo hi)).getLsbD (2 * p) = lo.getLsbD p := by
  obtain ⟨-, planes, -⟩ := Proofs.packingFollowsTheLayout
  exact planes lo hi p hp

/-- Bit `j` of line `k` of a packed payload tile: bytes `2k` and `2k + 1` are the line's planes (R80, R151). -/
theorem getLsbD_packTile_payload (payload : Payload) {k j : Nat} (hk : k < 8) (hj : j < 16) :
    (packTile (decodeTile (payloadBytes payload))).getLsbD (16 * k + j) = (packLine (decodeLine
      (payload.extractLsb' (8 * (2 * k)) 8) (payload.extractLsb' (8 * (2 * k + 1)) 8))).getLsbD j := by
  rw [getLsbD_packTile _ hk hj, getElem_decodeTile _ _ hk, getElem_payloadBytes, getElem_payloadBytes]

/-! ### One pixel of the frame buffer -/

/-- The coordinates of a pixel pass the check and name that pixel (R155, R156). -/
@[simp] theorem checkPixel_ofNat (x : Fin 160) (y : Fin 144) :
    checkPixel (BitVec.ofNat 8 x) (BitVec.ofNat 8 y) = .ok (x, y) := by
  have hx : (BitVec.ofNat 8 x).toNat = x := by rw [BitVec.toNat_ofNat]; omega
  have hy : (BitVec.ofNat 8 y).toNat = y := by rw [BitVec.toNat_ofNat]; omega
  rw [checkPixel_ok (by omega) (by omega)]
  simp only [hx, hy]

theorem exec_dset (s : State) (c : Color) (x : Fin 160) (y : Fin 144) :
    exec (.dset c (BitVec.ofNat 8 x) (BitVec.ofNat 8 y)) s =
      .next (State.respond { s with fb := FrameBuffer.setPixel s.fb x y c } .none) := by
  simp [exec, execDset]

theorem exec_dset_abort (s : State) (c : Color) {x y : Byte} (h : 160 ≤ x.toNat ∨ 144 ≤ y.toNat) :
    exec (.dset c x y) s = .next (s.abort .displayBounds) := by
  simp [exec, execDset, checkPixel_error h]

theorem exec_dget (s : State) (x : Fin 160) (y : Fin 144) :
    exec (.dget (BitVec.ofNat 8 x) (BitVec.ofNat 8 y)) s =
      .next (s.respond (.color (FrameBuffer.pixel s.fb x y))) := by
  simp [exec, execDget]

theorem exec_dget_abort (s : State) {x y : Byte} (h : 160 ≤ x.toNat ∨ 144 ≤ y.toNat) :
    exec (.dget x y) s = .next (s.abort .displayBounds) := by
  simp [exec, execDget, checkPixel_error h]

/-! ### The background -/

/-- The background's colour at a column and row of its 256 by 256 plane, both taken modulo 256 (R152). -/
def backgroundColor (cfg : Config) (m : List Host.Cell) (column row : Nat) : Color :=
  let lcdc := busRead cfg m cfg.addrLCDC
  let mapBase := if lcdc.getLsbD cfg.lcdcBgMapBit then 0x9C00 else 0x9800
  let id := busRead cfg m (BitVec.ofNat 16 (mapBase + 32 * (row / 8 % 32) + column / 8 % 32))
  let line := tileAddr cfg id lcdc + BitVec.ofNat 16 (2 * (row % 8))
  BitVec.ofBool ((busRead cfg m (line + 1)).getLsbD (7 - column % 8)) ++
    BitVec.ofBool ((busRead cfg m line).getLsbD (7 - column % 8))

/-- The 8-bit sum of a scroll byte and a coordinate, split into map cell and offset in the tile. -/
theorem toNat_scroll_add (scroll : Byte) (n : Nat) :
    (scroll + BitVec.ofNat 8 n).toNat / 8 = (scroll.toNat + n) / 8 % 32 ∧
      (scroll + BitVec.ofNat 8 n).toNat % 8 = (scroll.toNat + n) % 8 := by
  rw [BitVec.toNat_add, BitVec.toNat_ofNat]
  omega

/-- `BgPixel` is the background's colour at the place the scroll bytes move the pixel to (R152). -/
theorem bgPixel_ofNat (cfg : Config) (m : List Host.Cell) (x y : Nat) :
    bgPixel cfg m (BitVec.ofNat 8 x) (BitVec.ofNat 8 y) =
      backgroundColor cfg m ((busRead cfg m cfg.addrSCX).toNat + x) ((busRead cfg m cfg.addrSCY).toNat + y) := by
  obtain ⟨hcolumn, hx⟩ := toNat_scroll_add (busRead cfg m cfg.addrSCX) x
  obtain ⟨hrow, hy⟩ := toNat_scroll_add (busRead cfg m cfg.addrSCY) y
  simp only [bgPixel, backgroundColor, getElem_decodeLine, hcolumn, hx, hrow, hy]

/-- The frame of `DUPD` pixel by pixel: blank while the gate holds, else the background (R157). -/
theorem pixel_frameOf (cfg : Config) (m : List Host.Cell) (x : Fin 160) (y : Fin 144) :
    FrameBuffer.pixel (frameOf cfg m) x y =
      if cfg.bgEnableGatesUpdate = true ∧ (busRead cfg m cfg.addrLCDC).getLsbD cfg.lcdcBgEnableBit = false then 0
      else backgroundColor cfg m ((busRead cfg m cfg.addrSCX).toNat + x) ((busRead cfg m cfg.addrSCY).toNat + y) := by
  simp only [frameOf, Bool.and_eq_true, Bool.not_eq_true']
  split_ifs
  · exact FrameBuffer.pixel_fill _ x y
  · rw [FrameBuffer.pixel_fill, bgPixel_ofNat]

/-- This hardware's frame is never gated. -/
theorem pixel_frameOf_hardware (m : List Host.Cell) (x : Fin 160) (y : Fin 144) :
    FrameBuffer.pixel (frameOf Config.hardware m) x y = backgroundColor Config.hardware m
      ((busRead Config.hardware m Config.hardware.addrSCX).toNat + x)
      ((busRead Config.hardware m Config.hardware.addrSCY).toNat + y) := by
  rw [pixel_frameOf, if_neg (by simp)]

end Sys2Proof.Machine

namespace Sys2Proof.Proofs

open Sys2Proof.Machine

/-- Settles O55: the frame of `DUPD` is the background's colour at each place, or blank while the gate holds. -/
theorem dupdRebuildsTheFrame : Obligations.DupdRebuildsTheFrame := by
  refine ⟨fun s => ⟨_, exec_dupd s, fun x y => ?_⟩, fun cfg m hgate henable x y => ?_, fun _ => rfl⟩
  · exact pixel_frameOf_hardware s.mem x y
  · rw [pixel_frameOf, if_pos ⟨hgate, henable⟩]

/-- Settles O53: `FrameBuffer.setPixel` at the pixel the check names. -/
theorem dsetWritesOnePixel : Obligations.DsetWritesOnePixel := by
  refine ⟨fun s c x y => ⟨_, exec_dset s c x y, ?_, fun x' y' h => ?_⟩, fun s c x y h => ?_, fun c x y p => ?_⟩
  · exact FrameBuffer.pixel_setPixel_same s.fb x y c
  · exact FrameBuffer.pixel_setPixel_other s.fb c h
  · exact exec_dset_abort s c h
  · exact decode_dset_word 0 c x y p

/-- Settles O54: `FrameBuffer.pixel` at the pixel the check names. -/
theorem dgetReadsOnePixel : Obligations.DgetReadsOnePixel :=
  ⟨exec_dget, fun s _ _ h => exec_dget_abort s h, fun x y p => decode_dget_word 0 x y p⟩

/-- Settles O52: each line of the packed tile has two payload bytes as its planes. -/
theorem tilUnpacksThePayload : Obligations.TilUnpacksThePayload := by
  refine ⟨fun s payload => ⟨_, exec_til s payload, fun k p hk hp => ?_⟩, fun _ => rfl⟩
  obtain ⟨high, low⟩ := packLine_decodeLine_planes (payload.extractLsb' (8 * (2 * k)) 8)
    (payload.extractLsb' (8 * (2 * k + 1)) 8) hp
  constructor
  · rw [getLsbD_packTile_payload payload hk (by omega), low]
    simp [hp]
  · rw [Nat.add_assoc, getLsbD_packTile_payload payload hk (by omega), high]
    simp [hp]

/-- Settles O51: the packed line has the two bytes as its planes. -/
theorem tlnUnpacksOneLine : Obligations.TlnUnpacksOneLine :=
  ⟨fun s lo hi => ⟨_, exec_tln s lo hi, fun _ hp => packLine_decodeLine_planes lo hi hp⟩,
    fun lo hi p => decode_tln_word lo hi 0 p⟩

/-- Settles O49: each pixel from its two plane bits, which are read back from it. -/
theorem decodeLineUnpacksThePlanes : Obligations.DecodeLineUnpacksThePlanes := by
  have pixel (lo hi : Byte) (i : Fin 8) := getElem_decodeLine lo hi i i.isLt
  refine ⟨pixel, fun lo hi lo' hi' => decodeLine_inj, fun lo hi i => ?_⟩
  have zero : (0 : Color) = BitVec.ofBool false ++ BitVec.ofBool false := rfl
  rw [Vector.get_eq_getElem, pixel, zero, ofBool_append_inj, and_comm]

/-- Settles O56: the fields of `BgWindow` are sums of bytes, so modulo 256. -/
theorem bgwReportsTheWindow : Obligations.BgwReportsTheWindow :=
  ⟨exec_bgw, fun scx scy => ⟨BitVec.toNat_add scy 143, BitVec.toNat_add scx 159⟩, fun _ => rfl⟩

end Sys2Proof.Proofs
end

section
/-! SUPPORT. The operand checks and the `ABORT` responses read backwards: which operands fail with which cause, and the
table of R181 as the commands that raise each. -/

namespace Sys2Proof.Machine

/-! ### The operand checks, failed -/

theorem checkMode_eq_error_iff {r : Reg16} {m : Mode} {c : Cause} : checkMode r m = .error c ↔
    c = .reservedEncoding ∧ (m = .reserved ∨ r ≠ .HL ∧ (m = .increment ∨ m = .decrement)) := by
  cases m with
  | normal => simp
  | increment => by_cases hr : r = .HL <;> simp [hr, eq_comm]
  | decrement => by_cases hr : r = .HL <;> simp [hr, eq_comm]
  | reserved => simp [eq_comm]

theorem checkTileId_eq_error_iff {id : Word} {c : Cause} :
    checkTileId id = .error c ↔ c = .tileIndexRange ∧ 255 < id.toNat := by
  by_cases hid : 255 < id.toNat
  · simp [checkTileId_error hid, hid, eq_comm]
  · simp [checkTileId_ok (not_lt.1 hid), hid]

theorem checkPixel_eq_error_iff {x y : Byte} {c : Cause} :
    checkPixel x y = .error c ↔ c = .displayBounds ∧ (160 ≤ x.toNat ∨ 144 ≤ y.toNat) := by
  by_cases hxy : 160 ≤ x.toNat ∨ 144 ≤ y.toNat
  · simp [checkPixel_error hxy, hxy, eq_comm]
  · rw [checkPixel_ok (by omega) (by omega)]
    simp [hxy]

/-- A command that one check precedes is answered `ABORT` exactly with the cause that the check fails with. -/
theorem response_abort_iff_of_checked {α : Type} {s t : State} {check : Except Cause α} {out : α → State × Data}
    (h : complete s (checked check fun a => .ok (out a)) = .next t) (c : Cause) :
    t.response = some (.abort c) ↔ check = .error c := by
  cases check with
  | ok a =>
    obtain rfl := Host.Outcome.next.inj h
    simp
  | error c' =>
    obtain rfl := Host.Outcome.next.inj h
    simp

/-! ### The table of causes -/

/-- When a command raises a cause: the rows of R181's table, an `Invalid` word apart. -/
def Raises (i : Instr) : Cause → Prop
  | .wrongWidth => (∃ r, i = .rd8 (.r16 r)) ∨ (∃ r v, i = .wr8 (.r16 r) v) ∨ (∃ r m, i = .rd16 (.r8 r) m) ∨
      ∃ r v, i = .wr16 (.r8 r) v
  | .regionRange => False
  | .tileIndexRange => ∃ id : Word, i = .tget id ∧ 255 < id.toNat
  | .displayBounds => ∃ x y : Byte, (i = .dget x y ∨ ∃ c, i = .dset c x y) ∧ (160 ≤ x.toNat ∨ 144 ≤ y.toNat)
  | .reservedEncoding =>
      (∃ reg, (reg = .reserved14 ∨ reg = .reserved15) ∧
        (i = .rd8 reg ∨ (∃ v, i = .wr8 reg v) ∨ (∃ m, i = .rd16 reg m) ∨ ∃ v, i = .wr16 reg v)) ∨
      (∃ r, i = .rd16 (.r16 r) .reserved) ∨
      ∃ r m, r ≠ .HL ∧ (m = .increment ∨ m = .decrement) ∧ i = .rd16 (.r16 r) m

/-- A command is answered `ABORT` with a cause exactly when the table says that it raises the cause (R181). -/
theorem response_abort_iff_raises {i : Instr} {s t : State} (h : exec i s = .next t) (c : Cause) :
    t.response = some (.abort c) ↔ Raises i c := by
  cases i with
  | rd8 reg =>
    rw [response_abort_iff_of_checked h]
    cases reg <;> cases c <;> simp [Raises]
  | wr8 reg v =>
    rw [response_abort_iff_of_checked h]
    cases reg <;> cases c <;> simp [Raises]
  | rd16 reg mode =>
    cases reg with
    | r16 r =>
      rw [response_abort_iff_of_checked (check := checkMode r mode) h, checkMode_eq_error_iff]
      cases c <;> simp [Raises]
    | _ => -- the selector fails its check before the mode is looked at
      obtain rfl := Host.Outcome.next.inj h
      cases c <;> simp [Raises]
  | wr16 reg v =>
    rw [response_abort_iff_of_checked h]
    cases reg <;> cases c <;> simp [Raises]
  | tget id =>
    rw [response_abort_iff_of_checked h, checkTileId_eq_error_iff]
    cases c <;> simp [Raises]
  | dset color x y =>
    rw [response_abort_iff_of_checked h, checkPixel_eq_error_iff]
    cases c <;> simp [Raises]
  | dget x y =>
    rw [response_abort_iff_of_checked h, checkPixel_eq_error_iff]
    cases c <;> simp [Raises]
  | _ => -- the commands without a check
    obtain rfl := Host.Outcome.next.inj h
    cases c <;> simp [Raises]

end Sys2Proof.Machine

namespace Sys2Proof.Proofs

open Sys2Proof.Machine

/-- Settles O17: `State.abort` is the whole abort entry, and from the latched state only the reset input steps. -/
theorem abortEntryIsPreciseAndSticky : Obligations.AbortEntryIsPreciseAndSticky := by
  refine ⟨fun i s t c h hc => ?_, fun s w p rest e => step_of_decode_error, fun c => ⟨rfl, rfl⟩,
    fun s t hout h => ?_⟩
  · obtain ⟨c', -, rfl⟩ | ⟨s', d, -, rfl⟩ := exec_cases h
    · obtain rfl : c' = c := by simpa using hc
      exact ⟨rfl, rfl⟩
    · simp at hc
  · have latched : s.aborted ≠ none := Option.isSome_iff_ne_none.1 hout
    obtain ⟨rest, hp, -⟩ | ⟨live, -⟩ | ⟨_, _, _, _, live, -⟩ | ⟨_, _, _, _, live, -⟩ :=
      stepWith_cases (step_eq_stepWith s ▸ h)
    · exact ⟨rest, hp⟩
    all_goals exact absurd live latched

/-- Settles O18: an `ABORT` response's cause is what the command `Raises`, and `Raises` is the table clause by clause. -/
theorem causesFollowTheTable : Obligations.CausesFollowTheTable := by
  refine ⟨fun i s t h => ?_, fun s w p rest e ha hp hd => ⟨_, step_of_decode_error ha hp hd, rfl⟩,
    rfl, rfl, rfl, rfl, rfl, fun _ => rfl⟩
  have table := response_abort_iff_raises h
  exact ⟨table .wrongWidth, (table .regionRange).1, table .tileIndexRange, table .displayBounds,
    table .reservedEncoding⟩

end Sys2Proof.Proofs
end

section
/-! SUPPORT. The reset input: what the step answers to it, in every state and under every configuration (R200, R201). -/

namespace Sys2Proof.Machine

/-- The reset input gives the reset values and keeps the owner's further inputs (log entry 5), whatever the state. -/
theorem stepWith_of_reset (cfg : Config) {s : State} {rest : List PortInput} (hp : s.port = .reset :: rest) :
    stepWith cfg s = .next (State.powerOn cfg rest) := by
  simp [stepWith, accept, hp]

/-- `stepWith_of_reset` at the defaults of R2, where the state reached is `State.reset` but for the inputs left. -/
theorem step_of_reset {s : State} {rest : List PortInput} (hp : s.port = .reset :: rest) :
    step s = .next { State.reset with port := rest } :=
  (step_eq_stepWith s).trans (stepWith_of_reset Config.hardware hp)

end Sys2Proof.Machine

namespace Sys2Proof.Proofs

open Sys2Proof.Machine

/-- Settles O11: the latch is sticky (O17), so a step from it took the reset input, and `step_of_reset` says to where. -/
theorem resetIsTheOnlyExitAndIsTotal : Obligations.ResetIsTheOnlyExitAndIsTotal := by
  obtain ⟨-, -, -, onlyReset⟩ := abortEntryIsPreciseAndSticky
  refine ⟨fun s t c ha h => ?_, fun _ _ => step_of_reset⟩
  have latched : s.abortOutput = true := by simp [State.abortOutput, ha]
  obtain ⟨rest, hp⟩ := onlyReset s t latched h
  exact ⟨rest, hp, Host.Outcome.next.inj (h.symm.trans (step_of_reset hp))⟩

end Sys2Proof.Proofs
end

section
/-! SUPPORT. The codec in both directions (R71 to R82, R90). An encoded word is its operands and zeros side by side, the
form in which each command word decodes; and a decoded word is the part its operands cover beside zeros. -/

namespace Sys2Proof

/-! ### Fields side by side -/

/-- Two values side by side stand each in its own place. -/
theorem place_append {n m : Nat} (lo : Nat) (x : BitVec n) (y : BitVec m) :
    place lo (x ++ y) = place (lo + m) x ||| place lo y := by
  ext k hk
  rw [BitVec.getElem_or, getElem_place, getElem_place, getElem_place, BitVec.getLsbD_append]
  by_cases hlo : k < lo
  · simp [hlo, show k < lo + m by omega]
  · by_cases hm : k - lo < m
    · simp [hlo, hm, show k < lo + m by omega]
    · simp [hlo, hm, show ¬ k < lo + m by omega, Nat.sub_sub, BitVec.getLsbD_of_ge y (k - lo) (not_lt.1 hm)]

@[simp] theorem place_zeros (lo n : Nat) : place lo 0#n = 0#32 := by
  simp [place]

/-- A word that is another one placed at bit 0 is that one. -/
theorem eq_of_eq_place {v w : CmdWord} (h : v = place 0 w) : v = w := by
  simpa [place] using h

/-! ### Encoded words, field by field -/

theorem encode_rd8 (reg : Sel) : encode (.rd8 reg) = 0x10#8 ++ reg.code ++ 0#20 :=
  eq_of_eq_place (by simp only [place_append, place_zeros, BitVec.or_zero]; rfl)

theorem encode_wr8 (reg : Sel) (v : Byte) : encode (.wr8 reg v) = 0x11#8 ++ reg.code ++ 0#12 ++ v :=
  eq_of_eq_place (by simp only [place_append, place_zeros, BitVec.or_zero]; rfl)

theorem encode_rd16 (reg : Sel) (mode : Mode) :
    encode (.rd16 reg mode) = 0x12#8 ++ reg.code ++ mode.code ++ 0#18 :=
  eq_of_eq_place (by simp only [place_append, place_zeros, BitVec.or_zero]; rfl)

theorem encode_wr16 (reg : Sel) (v : Word) : encode (.wr16 reg v) = 0x13#8 ++ reg.code ++ 0#4 ++ v :=
  eq_of_eq_place (by simp only [place_append, place_zeros, BitVec.or_zero]; rfl)

theorem encode_fget (flag : Flag) : encode (.fget flag) = 0x14#8 ++ flag.code ++ 0#22 :=
  eq_of_eq_place (by simp only [place_append, place_zeros, BitVec.or_zero]; rfl)

theorem encode_fset (flag : Flag) (b : Bool) :
    encode (.fset flag b) = 0x15#8 ++ flag.code ++ 0#21 ++ BitVec.ofBool b :=
  eq_of_eq_place (by simp only [place_append, place_zeros, BitVec.or_zero]; rfl)

theorem encode_icls (v : Byte) : encode (.icls v) = 0x1A#8 ++ 0#16 ++ v :=
  eq_of_eq_place (by simp only [place_append, place_zeros, BitVec.or_zero]; rfl)

theorem encode_brd (addr : Word) : encode (.brd addr) = 0x20#8 ++ addr ++ 0#8 :=
  eq_of_eq_place (by simp only [place_append, place_zeros, BitVec.or_zero]; rfl)

theorem encode_bwr (addr : Word) (data : Byte) : encode (.bwr addr data) = 0x21#8 ++ addr ++ data :=
  eq_of_eq_place (by simp only [place_append]; rfl)

theorem encode_tget (id : Word) : encode (.tget id) = 0x23#8 ++ 0#8 ++ id :=
  eq_of_eq_place (by simp only [place_append, place_zeros, BitVec.or_zero]; rfl)

theorem encode_tln (lo hi : Byte) : encode (.tln lo hi) = 0x30#8 ++ lo ++ hi ++ 0#8 :=
  eq_of_eq_place (by simp only [place_append, place_zeros, BitVec.or_zero]; rfl)

theorem encode_til (payload : Payload) : encode (.til payload) = 0x31000000 := rfl

theorem encode_dset (color : Color) (x y : Byte) :
    encode (.dset color x y) = 0x32#8 ++ 0#6 ++ color ++ x ++ y :=
  eq_of_eq_place (by simp only [place_append, place_zeros, BitVec.or_zero]; rfl)

theorem encode_dget (x y : Byte) : encode (.dget x y) = 0x33#8 ++ 0#8 ++ x ++ y :=
  eq_of_eq_place (by simp only [place_append, place_zeros, BitVec.or_zero]; rfl)

/-! ### Decoding an encoded command -/

/-- Decoding inverts encoding, where the payload beside the word is the one that the command carries (R70). -/
theorem decode_encode (i : Instr) (p : Payload) (hp : ∀ q, i = .til q → q = p) : decode (encode i) p = .ok i := by
  cases i with
  | rd8 reg => rw [encode_rd8, decode_rd8_word, Sel.ofCode_code]; rfl
  | wr8 reg v => rw [encode_wr8, decode_wr8_word, Sel.ofCode_code]; rfl
  | rd16 reg mode => rw [encode_rd16, decode_rd16_word, Sel.ofCode_code, Mode.ofCode_code]; rfl
  | wr16 reg v => rw [encode_wr16, decode_wr16_word, Sel.ofCode_code]; rfl
  | fget flag => rw [encode_fget, decode_fget_word, Flag.ofCode_code]; rfl
  | fset flag b => rw [encode_fset, decode_fset_word, Flag.ofCode_code]; rfl
  | imeset b => cases b <;> rfl
  | hwset b => cases b <;> rfl
  | icls v => rw [encode_icls, decode_icls_word]; rfl
  | brd addr => rw [encode_brd, decode_brd_word]; rfl
  | bwr addr data => rw [encode_bwr, decode_bwr_word]
  | tget id => rw [encode_tget, decode_tget_word]; rfl
  | tln lo hi => rw [encode_tln, decode_tln_word]; rfl
  | til payload =>
    rw [encode_til, hp payload rfl]
    rfl
  | dset color x y => rw [encode_dset, decode_dset_word]; rfl
  | dget x y => rw [encode_dget, decode_dget_word]; rfl
  | _ => rfl -- a word without operands is one number

/-! ### Encoding a decoded word -/

/-- A field in its place is the part of the word that it covers. -/
theorem place_field (w : CmdWord) (hi lo : Nat) :
    place lo (field w hi lo) = w &&& place lo (BitVec.allOnes (hi - lo + 1)) :=
  (and_place_allOnes w lo _).symm

/-- The one-bit operand of `FSET`, `IMESET` and `HWSET` is the field of bit 0. -/
theorem oneBit_getLsbD (w : CmdWord) : oneBit (w.getLsbD 0) = field w 0 0 := by
  ext k hk
  obtain rfl : k = 0 := by omega
  simp [oneBit]

/-- A word that is zero outside the bits covered is the part covered. -/
theorem and_covered_eq {w covered : CmdWord} {hi lo : Nat} (hzero : field w hi lo = 0)
    (hcover : covered ||| place lo (BitVec.allOnes (hi - lo + 1)) = BitVec.allOnes 32) : w &&& covered = w := by
  have outside : w &&& place lo (BitVec.allOnes (hi - lo + 1)) = 0#32 := by
    rw [← place_field, hzero]
    exact place_zeros lo _
  calc w &&& covered = w &&& (covered ||| place lo (BitVec.allOnes (hi - lo + 1))) := by
        rw [BitVec.and_or_distrib_left, outside, BitVec.or_zero]
    _ = w := by rw [hcover, BitVec.and_allOnes]

/-- The operation code that a word's `op` field holds. -/
theorem ofNat_op {w : CmdWord} {op : Nat} (hop : (field w 31 24).toNat = op) : BitVec.ofNat 8 op = field w 31 24 :=
  hop ▸ BitVec.eq_of_toNat_eq (by simp)

/-- The bits that a format reads and those it checks to be zero are the whole word (R73 to R82). -/
theorem encode_of_decode {w : CmdWord} {p : Payload} {i : Instr} (h : decode w p = .ok i) : encode i = w := by
  unfold decode at h
  split at h
  case h_14 hop => -- `BWR`, whose operands are the whole word beside `op`
    obtain rfl := Except.ok.inj h
    simp only [encode, ofNat_op hop, place_field, ← BitVec.and_or_distrib_left]
    exact BitVec.and_allOnes
  case h_23 => exact nomatch h
  all_goals
    rename_i hop
    obtain ⟨hzero, rfl⟩ := ifZero_ok_iff.1 h
    simp only [encode, ofNat_op hop, Sel.code_ofCode, Mode.code_ofCode, Flag.code_ofCode, oneBit_getLsbD, place_field,
      ← BitVec.and_or_distrib_left]
    exact and_covered_eq (beq_iff_eq.1 hzero) (by decide)

/-! ### The payload -/

/-- Two payloads beside one word: the word decodes alike, or it is `TIL` with each payload as its operand (R70). -/
theorem decode_payload (w : CmdWord) (p q : Payload) :
    decode w q = decode w p ∨ decode w p = .ok (.til p) ∧ decode w q = .ok (.til q) := by
  unfold decode
  split
  case h_18 => -- the word of `TIL`, if its zeros are zero
    cases field w 23 0 == 0
    · exact .inl rfl
    · exact .inr ⟨rfl, rfl⟩
  all_goals exact .inl rfl

/-- The operand of a decoded `TIL` is the payload beside the word (R80). -/
theorem eq_payload_of_decode_til {w : CmdWord} {p a : Payload} (h : decode w p = .ok (.til a)) : a = p := by
  have word : w = 0x31000000 := (encode_of_decode h).symm
  have again : decode w p = .ok (.til p) := by
    rw [word]
    rfl
  simpa using h.symm.trans again

end Sys2Proof

namespace Sys2Proof.Proofs

open Sys2Proof.Machine

/-- Settles O3: each encoded word is its fields side by side, and so it decodes. -/
theorem decodeOfEncodeGivesTheCommand : Obligations.DecodeOfEncodeGivesTheCommand :=
  decode_encode

/-- Settles O4: the fields read and the zeros checked are the whole word. -/
theorem encodeOfDecodeGivesTheWord : Obligations.EncodeOfDecodeGivesTheWord := by
  refine fun w p i h => ⟨encode_of_decode h, ?_⟩
  rintro q rfl
  exact eq_payload_of_decode_til h

/-- Settles O6: where the payload matters the word decodes to `TIL`. -/
theorem payloadReadByTilAlone : Obligations.PayloadReadByTilAlone := by
  intro w p q hnone
  obtain alike | ⟨htil, -⟩ := decode_payload w p q
  · exact alike
  · exact absurd htil (hnone p)

end Sys2Proof.Proofs
end

section
/-! SUPPORT. What a command's effect keeps (the latch, the port, the cells and the frame buffer but for their writers), the
invariant of the reachable states along a step, and the commands that break the programming contract. -/

namespace Sys2Proof.Machine

/-! ### What an effect leaves unchanged -/

/-- No command writes the abort latch before it ends (R183). -/
theorem Effect.aborted {cfg : Config} {s s' : State} {i : Instr} (h : Effect cfg s i s') :
    s'.aborted = s.aborted := by
  cases h <;> simp

/-- No command takes a further input from the port (R70). -/
theorem Effect.port {cfg : Config} {s s' : State} {i : Instr} (h : Effect cfg s i s') : s'.port = s.port := by
  cases h <;> simp

/-- Only `BWR` writes the cells (R47). -/
theorem Effect.mem {cfg : Config} {s s' : State} {i : Instr} (h : Effect cfg s i s') (hi : ∀ a v, i ≠ .bwr a v) :
    s'.mem = s.mem := by
  cases h with
  | bwr a v => exact absurd rfl (hi a v)
  | _ => simp

/-- Only `DSET` and `DUPD` write the frame buffer (R24). -/
theorem Effect.fb {cfg : Config} {s s' : State} {i : Instr} (h : Effect cfg s i s')
    (hdset : ∀ c x y, i ≠ .dset c x y) (hdupd : i ≠ .dupd) : s'.fb = s.fb := by
  cases h with
  | dset c x y p => exact absurd rfl (hdset c x y)
  | dupd => exact absurd rfl hdupd
  | _ => simp

/-- The one write of the cells, `BWR`, keeps them canonical. -/
theorem Effect.cells {cfg : Config} {s s' : State} {i : Instr} (h : Effect cfg s i s')
    (hs : Memory.wf cfg s.mem = true) : Memory.wf cfg s'.mem = true := by
  cases h with
  | bwr a v => exact wf_busWrite cfg hs a v
  | _ => simpa using hs

/-! ### The invariant of the reachable states -/

/-- At reset, whatever the owner's further inputs, the invariant holds under every configuration. -/
theorem State.powerOn_inv (cfg : Config) (inputs : List PortInput) : (State.powerOn cfg inputs).Inv cfg where
  flags := State.powerOn_flagsMasked cfg inputs
  cells := Memory.wf_nil cfg
  shown := by simp [State.abortShown]
  region := by simp

/-- The invariant does not see the owner's further inputs. -/
theorem State.Inv.withPort {cfg : Config} {s : State} (h : s.Inv cfg) (inputs : List PortInput) :
    State.Inv cfg { s with port := inputs } :=
  ⟨h.flags, h.cells, h.shown, h.region⟩

/-- Abort entry sets latch and response to one cause, so they agree (R183). -/
theorem State.Inv.abort {cfg : Config} {s : State} (h : s.Inv cfg) {c : Cause} (hc : c ≠ .regionRange) :
    (s.abort c).Inv cfg where
  flags := h.flags
  cells := h.cells
  shown := by simp [State.abortShown]
  region := by simpa using hc

/-- A live block's command that completes leaves latch and response agreeing: no cause, and `OK`. -/
theorem State.Inv.respond {cfg : Config} {s s' : State} {i : Instr} (h : s.Inv cfg) (hlive : s.aborted = none)
    (he : Effect cfg s i s') (d : Data) : (s'.respond d).Inv cfg where
  flags := he.flagsMasked h.flags
  cells := he.cells h.cells
  shown := by simp [State.abortShown, he.aborted, hlive]
  region := by simp [he.aborted, hlive]

theorem execWith_inv {cfg : Config} {i : Instr} {s t : State} (hs : s.Inv cfg) (hlive : s.aborted = none)
    (h : execWith cfg i s = .next t) : t.Inv cfg := by
  obtain ⟨c, hc, rfl⟩ | ⟨s', d, he, rfl⟩ := execWith_cases h
  · exact hs.abort hc
  · exact hs.respond hlive he d

theorem stepWith_inv {cfg : Config} {s t : State} (hs : s.Inv cfg) (h : stepWith cfg s = .next t) : t.Inv cfg := by
  obtain ⟨rest, -, rfl⟩ | ⟨-, -, rfl⟩ | ⟨w, p, rest, i, hlive, -, -, he⟩ | ⟨w, p, rest, e, -, -, -, rfl⟩ :=
    stepWith_cases h
  · exact State.powerOn_inv cfg rest
  · exact hs
  · exact execWith_inv (hs.withPort rest) hlive he
  · exact (hs.withPort rest).abort (by decide)

/-! ### The programming contract -/

/-- One of the five causes has a property. -/
theorem exists_cause_iff {p : Cause → Prop} : (∃ c, p c) ↔
    p .wrongWidth ∨ p .regionRange ∨ p .tileIndexRange ∨ p .displayBounds ∨ p .reservedEncoding := by
  constructor
  · rintro ⟨c, h⟩
    cases c <;> simp [h]
  · rintro (h | h | h | h | h) <;> exact ⟨_, h⟩

/-- A command breaks its contract exactly when it raises a cause of R181's table. -/
theorem wf_eq_false_iff_raises (i : Instr) : i.wf = false ↔ ∃ c, Raises i c := by
  rw [exists_cause_iff]
  cases i with
  | rd8 reg => cases reg <;> simp [Instr.wf, Sel.is8, Raises]
  | wr8 reg v => cases reg <;> simp [Instr.wf, Sel.is8, Raises]
  | rd16 reg mode =>
    cases reg with
    | r16 r => cases mode <;> simp [Instr.wf, Sel.is16, Mode.fits, Raises]
    | _ => simp [Instr.wf, Sel.is16, Raises]
  | wr16 reg v => cases reg <;> simp [Instr.wf, Sel.is16, Raises]
  | tget id => simp [Instr.wf, tileIdInDomain, Raises]
  | dset color x y => simp [Instr.wf, onDisplay, Raises, imp_iff_or_not, or_comm]
  | dget x y => simp [Instr.wf, onDisplay, Raises, imp_iff_or_not, or_comm]
  | _ => simp [Instr.wf, Raises]
end Sys2Proof.Machine

namespace Sys2Proof.Proofs

open Sys2Proof.Machine

/-- Settles O19: reset gives the invariant, a command keeps it, and an invalid word's abort is one of its causes. -/
theorem everyStepKeepsTheInvariant : Obligations.EveryStepKeepsTheInvariant :=
  ⟨fun _ _ _ => stepWith_inv, fun s _ hs h => stepWith_inv hs (step_eq_stepWith s ▸ h)⟩

/-- Settles O20: the reset state is what the reset input leaves when no input follows. -/
theorem resetMeetsTheInvariant : Obligations.ResetMeetsTheInvariant :=
  ⟨fun cfg => State.powerOn_inv cfg [], State.powerOn_inv Config.hardware []⟩

/-- Settles O15: a command ends with an abort or a response, and leaves the port in both. -/
theorem everyCommandTerminatesWithAResponse : Obligations.EveryCommandTerminatesWithAResponse := by
  intro i s
  obtain ⟨t, h⟩ := exec_next i s
  obtain ⟨c, -, rfl⟩ | ⟨s', d, he, rfl⟩ := exec_cases h
  · exact ⟨_, _, h, rfl, rfl⟩
  · exact ⟨_, _, h, rfl, he.port⟩

/-- Settles O16: what a command raises decides both its contract and how it ends. -/
theorem commandsAbortExactlyOnBrokenContracts : Obligations.CommandsAbortExactlyOnBrokenContracts := by
  intro i s hlive
  obtain ⟨t, h⟩ := exec_next i s
  have raises := response_abort_iff_raises h
  obtain ⟨c, -, rfl⟩ | ⟨s', d, he, rfl⟩ := exec_cases h
  · have broken : i.wf = false := (wf_eq_false_iff_raises i).2 ⟨c, (raises c).1 rfl⟩
    exact ⟨fun kept => by simp [broken] at kept, fun _ => ⟨c, h⟩⟩
  · refine ⟨fun _ => ⟨_, d, h, he.aborted.trans hlive, rfl⟩, fun broken => ?_⟩
    obtain ⟨c, hc⟩ := (wf_eq_false_iff_raises i).1 broken
    simpa using (raises c).2 hc

/-- Settles O23: an abort writes no cell, and of the effects only that of `BWR` does. -/
theorem onlyBwrChangesTheBus : Obligations.OnlyBwrChangesTheBus := by
  intro i s t h hi
  have same : t.mem = s.mem := by
    obtain ⟨c, -, rfl⟩ | ⟨s', d, he, rfl⟩ := exec_cases h
    · rfl
    · exact he.mem hi
  exact ⟨same, fun a => by rw [State.byteAt, same, State.byteAt]⟩

/-- Settles O24: an abort writes no pixel, and of the effects only those of `DSET` and `DUPD` do. -/
theorem onlyDsetAndDupdChangeTheFrameBuffer : Obligations.OnlyDsetAndDupdChangeTheFrameBuffer := by
  intro i s t h hdset hdupd
  obtain ⟨c, -, rfl⟩ | ⟨s', d, he, rfl⟩ := exec_cases h
  · rfl
  · exact he.fb hdset hdupd

end Sys2Proof.Proofs
end

section
/-! SUPPORT. The registers: which effect writes each, the commands that only read, and a write read back. -/

namespace Sys2Proof.Machine

/-! ### The commands that only read (R210) -/

/-- A command's meaning that answers from the state, whatever the latch and the last response, and writes nothing
else but them. -/
def OnlyReads (meaning : State → Host.Outcome State Fault Refusal) : Prop :=
  ∃ answer : State → Except Cause Data,
    (∀ s latch last, answer { s with aborted := latch, response := last } = answer s) ∧
    ∀ s, meaning s = complete s ((answer s).map fun d => (s, d))

/-- The form of a read without a check. -/
theorem onlyReads_of_respond {meaning : State → Host.Outcome State Fault Refusal} {out : State → Data}
    (h : ∀ s, meaning s = .next (s.respond (out s)))
    (hout : ∀ s latch last, out { s with aborted := latch, response := last } = out s) : OnlyReads meaning :=
  ⟨fun s => .ok (out s), fun s latch last => congrArg Except.ok (hout s latch last), h⟩

/-- The form of a read that passes a check of its operands first. -/
theorem onlyReads_checked {α : Type} (check : Except Cause α) (out : α → State → Data)
    (hout : ∀ a s latch last, out a { s with aborted := latch, response := last } = out a s) :
    OnlyReads fun s => complete s (checked check fun a => .ok (s, out a s)) := by
  refine ⟨fun s => check.map fun a => out a s, fun s latch last => ?_, fun s => ?_⟩
  · simp only [hout]
  · cases check <;> rfl

/-- Every plain read has that form. -/
theorem exec_onlyReads {i : Instr} (h : isPlainRead i = true) : OnlyReads (exec i) := by
  cases i with
  | rd8 reg => exact onlyReads_checked (checkSel8 reg) (fun r s => .byte (s.get8 r)) fun r _ _ _ => by cases r <;> rfl
  | rd16 reg mode =>
    obtain rfl : mode = .normal := beq_iff_eq.1 h
    exact onlyReads_checked (checkSel16 reg) (fun r s => .word (s.get16 r)) fun r _ _ _ => by cases r <;> rfl
  | fget flag => exact onlyReads_of_respond (exec_fget · flag) fun _ _ _ => rfl
  | imeget => exact onlyReads_of_respond exec_imeget fun _ _ _ => rfl
  | hwget => exact onlyReads_of_respond exec_hwget fun _ _ _ => rfl
  | icls v => exact onlyReads_of_respond (exec_icls · v) fun _ _ _ => rfl
  | intq => exact onlyReads_of_respond exec_intq fun _ _ _ => rfl
  | brd addr => exact onlyReads_of_respond (exec_brd · addr) fun _ _ _ => rfl
  | ldt => exact onlyReads_of_respond exec_ldt fun _ _ _ => rfl
  | tget id =>
    exact onlyReads_checked (checkTileId id) (fun tile s => .tile (packTile (tileAt Config.hardware s.mem tile
      (busRead Config.hardware s.mem Config.hardware.addrLCDC)))) fun _ _ _ _ => rfl
  | tln lo hi => exact onlyReads_of_respond (exec_tln · lo hi) fun _ _ _ => rfl
  | til payload => exact onlyReads_of_respond (exec_til · payload) fun _ _ _ => rfl
  | dget x y =>
    exact onlyReads_checked (checkPixel x y) (fun p s => .color (FrameBuffer.pixel s.fb p.1 p.2)) fun _ _ _ _ => rfl
  | bgw => exact onlyReads_of_respond exec_bgw fun _ _ _ => rfl
  | _ => exact nomatch h

/-- A meaning of that form changes latch and response alone, and from its next state answers that state again. -/
theorem OnlyReads.repeats {meaning : State → Host.Outcome State Fault Refusal} (hm : OnlyReads meaning) {s t : State}
    (h : meaning s = .next t) :
    t = { s with aborted := t.aborted, response := t.response } ∧ meaning t = .next t := by
  obtain ⟨answer, same, hmeaning⟩ := hm
  rw [hmeaning] at h ⊢
  cases ha : answer s with
  | ok d =>
    obtain rfl := Host.Outcome.next.inj (ha ▸ h)
    refine ⟨rfl, ?_⟩
    have again : answer (s.respond d) = .ok d := (same s s.aborted _).trans ha
    rw [again]
    rfl
  | error c =>
    obtain rfl := Host.Outcome.next.inj (ha ▸ h)
    refine ⟨rfl, ?_⟩
    have again : answer (s.abort c) = .error c := (same s _ _).trans ha
    rw [again]
    rfl

/-! ### A register read back -/

@[simp] theorem highByte_append_lowByte (v : Word) : highByte v ++ lowByte v = v :=
  (BitVec.extractLsb'_append_extractLsb'_eq_extractLsb' rfl).trans BitVec.extractLsb'_eq_self

/-- `AF` read back: the high byte whole and the low byte masked (R103). -/
theorem highByte_append_flagMask (v : Word) : highByte v ++ flagMask (lowByte v) = v &&& 0xFFF0 := by
  calc highByte v ++ flagMask (lowByte v) = (highByte v &&& 0xFF#8) ++ (lowByte v &&& 0xF0#8) := by
        rw [show 0xFF#8 = BitVec.allOnes 8 from rfl, BitVec.and_allOnes]
        rfl
    _ = (highByte v ++ lowByte v) &&& (0xFF#8 ++ 0xF0#8) := BitVec.and_append.symm
    _ = v &&& 0xFFF0 := by
        rw [highByte_append_lowByte]
        rfl

theorem State.get16_set16 (s : State) (r : Reg16) (v : Word) :
    (s.set16 r v).get16 r = if r = .AF then v &&& 0xFFF0 else v := by
  cases r with
  | AF => exact highByte_append_flagMask v
  | SP => rfl
  | PC => rfl
  | _ => exact highByte_append_lowByte v

theorem State.get8_set8 (s : State) (r : Reg8) (v : Byte) :
    (s.set8 r v).get8 r = if r = .F then v &&& 0xF0 else v := by
  cases r <;> rfl

@[simp] theorem State.get16_respond (s : State) (d : Data) (r : Reg16) : (s.respond d).get16 r = s.get16 r := by
  cases r <;> rfl

@[simp] theorem State.get8_respond (s : State) (d : Data) (r : Reg8) : (s.respond d).get8 r = s.get8 r := by
  cases r <;> rfl

end Sys2Proof.Machine

namespace Sys2Proof.Proofs

open Sys2Proof.Machine

/-- Settles O25: an abort writes no register, and each effect writes those that its command names. -/
theorem registersChangeOnlyByTheirOwnCommands : Obligations.RegistersChangeOnlyByTheirOwnCommands := by
  intro i s t h
  obtain ⟨c, -, rfl⟩ | ⟨s', d, he, rfl⟩ := exec_cases h
  · simp
  · cases he with
    | wr8 r v => cases r <;> simp [State.set8]
    | stepL m => cases m <;> simp [State.stepL]
    | wr16 r v => cases r <;> simp [State.set16]
    | _ => simp

/-- Settles O26: an abort leaves `F`, and of the effects three write it. -/
theorem flagsChangeOnlyWhenWritten : Obligations.FlagsChangeOnlyWhenWritten := by
  intro i s t h
  obtain ⟨c, -, rfl⟩ | ⟨s', d, he, rfl⟩ := exec_cases h
  · simp
  · cases he with
    | wr8 r v => cases r <;> simp [State.set8]
    | wr16 r v => cases r <;> simp [State.set16]
    | _ => simp

/-- Settles O27: a plain read repeated meets the state that it left; the stepping reads step `L` once each. -/
theorem onlyTheSteppingReadChangesState : Obligations.OnlyTheSteppingReadChangesState := by
  refine ⟨fun i s t hi h => (exec_onlyReads hi).repeats h, fun s => ?_, fun s => ?_⟩
  · have increment (s : State) := exec_rd16_r16 s (checkMode_increment .HL)
    refine ⟨_, _, increment s, increment _, rfl, ?_, rfl⟩
    exact BitVec.add_assoc s.L 1 1
  · have decrement (s : State) := exec_rd16_r16 s (checkMode_decrement .HL)
    refine ⟨_, _, decrement s, decrement _, rfl, ?_, rfl⟩
    exact sub_sub s.L 1 1

/-- Settles O37: each register's write and read go to the same field, masked for `F`. -/
theorem registerWritesReadBack : Obligations.RegisterWritesReadBack := by
  refine ⟨fun s r v => ⟨_, _, exec_wr16_r16 s r v, exec_rd16_r16 _ (checkMode_normal r), ?_⟩,
    fun s r v => ⟨_, _, exec_wr8_r8 s r v, exec_rd8_r8 _ r, ?_⟩⟩
  · rw [State.respond_response, State.get16_respond, State.get16_set16]
  · rw [State.respond_response, State.get8_respond, State.get8_set8]

/-- Settles O43: a cell reads back its last write, and Echo and work RAM are other cells. -/
theorem busWritesReadBack : Obligations.BusWritesReadBack := by
  refine ⟨fun s a x => ⟨_, _, exec_bwr s a x, exec_brd _ a, ?_⟩,
    fun s p q => ⟨_, _, _, _, exec_bwr s 0xC000 p, exec_bwr _ 0xE000 q, exec_brd _ _, ?_, exec_brd _ _, ?_⟩⟩
  · rw [State.respond_response, State.byteAt, State.respond_mem, busRead_busWrite_same]
  · rw [State.respond_response, State.byteAt, State.respond_mem, busRead_busWrite_other _ q (by decide),
      State.respond_mem, busRead_busWrite_same]
  · rw [State.respond_response, State.byteAt, State.respond_mem, State.respond_mem, busRead_busWrite_same]

end Sys2Proof.Proofs
end

section
/-! SUPPORT. What is left at reset, the tiles read backwards, and the commands that read a parameter. -/

namespace Sys2Proof.Machine

/-! ### The frame buffer at reset -/

/-- Every pixel is `cfg.FB_RESET` after reset (R32). -/
theorem pixel_resetWith (cfg : Config) (x : Fin 160) (y : Fin 144) :
    FrameBuffer.pixel (State.resetWith cfg).fb x y = cfg.fbReset := by
  simp [FrameBuffer.pixel, Vector.get_eq_getElem]

/-! ### Tiles -/

/-- On this hardware with the tile-data bit set, the 256 tiles form one run from 0x8000 on. -/
theorem toNat_tileAddr_hardware_of_set (id : Byte) {lcdc : Byte} (h : lcdc.getLsbD 4 = true) :
    (tileAddr Config.hardware id lcdc).toNat = 0x8000 + 16 * id.toNat := by
  have hid := id.isLt
  rw [tileAddr_eq_ofNat, Config.hardware_tileStride, Config.hardware_lcdcTileDataBit, if_pos h, BitVec.toNat_ofNat]
  split_ifs <;> omega

/-- On this hardware with the tile-data bit clear, identifiers that differ by 128 name one tile. -/
theorem toNat_tileAddr_hardware_of_clear (id : Byte) {lcdc : Byte} (h : lcdc.getLsbD 4 = false) :
    (tileAddr Config.hardware id lcdc).toNat = 0x8800 + 16 * (id.toNat % 128) := by
  have hid := id.isLt
  have hlow : Config.hardware.lowIdBaseWhenClear.toNat = 0x8800 := rfl
  have hbit : ¬ lcdc.getLsbD Config.hardware.lcdcTileDataBit = true := ne_true_of_eq_false h
  rw [tileAddr_eq_ofNat, if_neg hbit, hlow, Config.hardware_tileStride, BitVec.toNat_ofNat]
  split_ifs <;> omega

/-- Bit `p` of a tile's byte `2k` or `2k + 1` is a bit of the packed tile: the low or the high bit of a pixel. -/
theorem getLsbD_packTile_decodeTile (b : Vector Byte 16) {k p : Nat} (hk : k < 8) (hp : p < 8) :
    (packTile (decodeTile b)).getLsbD (16 * k + 2 * p) = b[2 * k].getLsbD p ∧
      (packTile (decodeTile b)).getLsbD (16 * k + (2 * p + 1)) = b[2 * k + 1].getLsbD p := by
  obtain ⟨high, low⟩ := packLine_decodeLine_planes b[2 * k] b[2 * k + 1] hp
  rw [getLsbD_packTile _ hk (by omega), getLsbD_packTile _ hk (by omega), getElem_decodeTile _ _ hk]
  exact ⟨low, high⟩

/-- A tile that packs to zero has only zero bytes (R133 (d)). -/
theorem getElem_eq_zero_of_packTile_eq_zero {b : Vector Byte 16} (h : packTile (decodeTile b) = 0) {k : Nat}
    (hk : k < 8) : b[2 * k] = 0 ∧ b[2 * k + 1] = 0 := by
  have bits (p : Nat) (hp : p < 8) : b[2 * k].getLsbD p = false ∧ b[2 * k + 1].getLsbD p = false := by
    obtain ⟨low, high⟩ := getLsbD_packTile_decodeTile b hk hp
    rw [← low, ← high, h]
    exact ⟨BitVec.getLsbD_zero, BitVec.getLsbD_zero⟩
  constructor
  · exact BitVec.eq_of_getLsbD_eq fun p hp => (bits p hp).1.trans BitVec.getLsbD_zero.symm
  · exact BitVec.eq_of_getLsbD_eq fun p hp => (bits p hp).2.trans BitVec.getLsbD_zero.symm

/-! ### The address decoder under every configuration -/

/-- The decoder without a mirror names no cell twice (R42). -/
theorem routeFixed_inj {a b : Nat} (ha : a < 65536) (hb : b < 65536) : routeFixed a = routeFixed b ↔ a = b := by
  refine ⟨fun h => ?_, congrArg routeFixed⟩
  obtain ⟨ea, -⟩ := routeFixed_spec ha
  obtain ⟨eb, -⟩ := routeFixed_spec hb
  rw [← ea, ← eb, h]

/-- Without a mirror an address alone routes to its cell (R42). -/
theorem route_eq_iff_of_unmirrored {cfg : Config} (hc : cfg.echoMirror = false) (a b : Word) :
    route cfg b = route cfg a ↔ b = a := by
  rw [route_of_unmirrored hc, route_of_unmirrored hc, routeFixed_inj b.isLt a.isLt, BitVec.toNat_inj]

/-- With the mirror a work-RAM address shares its cell with the Echo address 0x2000 above it, and with no other
(R49). -/
theorem route_eq_iff_of_mirrored {cfg : Config} (hc : cfg.echoMirror = true) {a : Word} (hfirst : 0xC000 ≤ a.toNat)
    (hlast : a.toNat ≤ 0xDDFF) (b : Word) : route cfg b = route cfg a ↔ b = a ∨ b = a + 0x2000 := by
  have hb := b.isLt
  have ha := a.isLt
  rw [route_below_echo cfg (a := a) (by omega)]
  by_cases hecho : 0xE000 ≤ b.toNat ∧ b.toNat ≤ 0xFDFF
  · obtain ⟨hlo, hhi⟩ := hecho
    rw [route_mirrored hc hlo hhi, routeFixed_inj (by omega) ha]
    bv_omega
  · have fixed : route cfg b = routeFixed b.toNat :=
      if_neg (by simp only [Bool.and_eq_true, decide_eq_true_eq]; omega)
    rw [fixed, routeFixed_inj hb ha]
    bv_omega

/-! ### `INTQ` -/

/-- The ten lines are bits 4 to 0 of the two bytes that the parameters name (R111). -/
theorem interruptQuery_eq (cfg : Config) (m : List Host.Cell) : interruptQuery cfg m =
    (busRead cfg m cfg.addrIF).extractLsb' 0 5 ++ (busRead cfg m cfg.addrIE).extractLsb' 0 5 := by
  rw [interruptQuery, pack_classify, pack_classify]

end Sys2Proof.Machine

namespace Sys2Proof.Proofs

open Sys2Proof.Machine

/-- Settles O13: nothing is listed and every pixel is the same, and the reset input leaves that state. -/
theorem resetLeavesMemoryAndFrameBufferAtTheConfiguredValues :
    Obligations.ResetLeavesMemoryAndFrameBufferAtTheConfiguredValues :=
  ⟨busRead_nil, pixel_resetWith, fun cfg _ _ => stepWith_of_reset cfg, rfl, busRead_nil Config.hardware,
    pixel_resetWith Config.hardware⟩

/-- Settles O45: the stride is 16 and the clear bit's base is block 1. -/
theorem tileAddrConsequencesWithTheDefaults : Obligations.TileAddrConsequencesWithTheDefaults :=
  ⟨fun id _ => toNat_tileAddr_hardware_of_set id, fun id _ => toNat_tileAddr_hardware_of_clear id,
    fun id lcdc _ => tileAddr_hardware_add_bounds id lcdc⟩

/-- Settles O47: each byte's bits are bits of the packed tile. -/
theorem nonBlankTilesShowAColour : Obligations.NonBlankTilesShowAColour := by
  rintro b ⟨⟨n, hn⟩, hbyte⟩ hzero
  obtain ⟨k, rfl | rfl⟩ := Nat.even_or_odd' n
  · exact hbyte (getElem_eq_zero_of_packTile_eq_zero hzero (by omega)).1
  · exact hbyte (getElem_eq_zero_of_packTile_eq_zero hzero (by omega)).2

/-- Settles O58: each command's own equation; a write is seen through the addresses that route to its cell. -/
theorem busCommandsUnderEveryConfiguration : Obligations.BusCommandsUnderEveryConfiguration := by
  refine ⟨fun cfg s => ?_, execWith_brd, fun cfg a => execWith_brd cfg _ a,
    fun cfg s a v => ⟨_, execWith_bwr cfg s a v, fun b => ?_⟩, fun cfg a b hc => route_eq_iff_of_unmirrored hc a b,
    fun cfg a hc hfirst hlast => route_eq_iff_of_mirrored hc hfirst hlast⟩
  · rw [execWith_intq, interruptQuery_eq]
    rfl
  · split_ifs with h
    · exact busRead_busWrite_of_route_eq cfg s.mem v h
    · exact busRead_busWrite_of_route_ne cfg s.mem v h

/-- Settles O59: `LDT` lists `nonBlankIds`, and `TGET` checks its identifier before it reads the tile. -/
theorem tileCommandsUnderEveryConfiguration : Obligations.TileCommandsUnderEveryConfiguration := by
  refine ⟨fun cfg s => ⟨_, nonBlankIds cfg s.mem _, rfl, rfl, ?_⟩,
    fun cfg s id hid => ⟨_, _, rfl, execWith_tget cfg s hid, fun k => extractLsb'_packTile_tileAt cfg s.mem _ _⟩,
    fun cfg s id => execWith_tget_abort cfg s⟩
  rw [execWith_ldt, tileList_eq_nonBlankIds]
  rfl

/-- Settles O60: the frame of `DUPD` pixel by pixel, and the fields of `BGW` as they are packed. -/
theorem frameCommandsUnderEveryConfiguration : Obligations.FrameCommandsUnderEveryConfiguration :=
  ⟨fun cfg s => ⟨_, execWith_dupd cfg s, pixel_frameOf cfg s.mem⟩, execWith_bgw⟩

end Sys2Proof.Proofs
end

section
/-! SUPPORT. What a step of a live block does with its first input, and the commands that read no parameter. -/

namespace Sys2Proof.Machine

/-! ### The step of a live block and of a dead one -/

/-- A live block runs the command that the word at its port decodes to, once the word is taken (R70). -/
theorem step_of_decode_ok {s : State} {w : CmdWord} {p : Payload} {rest : List PortInput} {i : Instr}
    (ha : s.aborted = none) (hp : s.port = .command w p :: rest) (hd : decode w p = .ok i) :
    step s = exec i { s with port := rest } := by
  simp [step, accept, ha, hp, hd]

/-- The bits of a word with its payload, read as the port presents them. -/
theorem decode_of_decodeTableWord {nbits w : Nat} {i : Instr} (h : decodeTableWord nbits w = some i) :
    decode (wordOfBits nbits w) (payloadOfBits nbits w) = .ok i := by
  unfold decodeTableWord at h
  split at h
  · rwa [← Option.some.inj h]
  · exact nomatch h

/-- A live block with an empty port does nothing (log entry 3). -/
theorem step_of_no_input {s : State} (ha : s.aborted = none) (hp : s.port = []) : step s = .next s := by
  simp [step, accept, ha, hp]

/-- A dead block stands still unless the reset input comes first (R184). -/
theorem step_of_aborted {s : State} {c : Cause} (ha : s.aborted = some c) (hp : ∀ rest, s.port ≠ .reset :: rest) :
    step s = .fault (.blockDead c) := by
  rcases hport : s.port with _ | ⟨⟨w, p⟩ | _, rest⟩
  · simp [step, accept, ha, hport]
  · simp [step, accept, ha, hport]
  · exact absurd hport (hp rest)

/-- The commands that name no parameter mean the same under any two configurations (R2). -/
theorem execWith_congr (cfg cfg' : Config) {i : Instr} (h : readsConfiguration i = false) (s : State) :
    execWith cfg i s = execWith cfg' i s := by
  cases i with
  | intq => exact nomatch h
  | brd addr => exact nomatch h
  | bwr addr data => exact nomatch h
  | ldt => exact nomatch h
  | tget id => exact nomatch h
  | dupd => exact nomatch h
  | bgw => exact nomatch h
  | _ => rfl

end Sys2Proof.Machine

namespace Sys2Proof.Proofs

open Sys2Proof.Machine

/-- Settles O7: a live block takes the first input, decodes it and does no more than the command. -/
theorem stepRunsTheDecodedCommand : Obligations.StepRunsTheDecodedCommand :=
  fun _ _ _ _ _ => step_of_decode_ok

/-- Settles O8: a placed word stands first at the port, before the inputs that were there. -/
theorem placedWordRunsNext : Obligations.PlacedWordRunsNext :=
  fun s nbits w _ ha h =>
    step_of_decode_ok (s := s.withFetchWord nbits w) ha rfl (decode_of_decodeTableWord h)

/-- Settles O9: with an empty port and no cause latched the port has nothing to do (log entry 3). -/
theorem nothingPresentedNothingHappens : Obligations.NothingPresentedNothingHappens :=
  fun _ => step_of_no_input

/-- Settles O10: the latch stops every input but the reset input. -/
theorem abortedBlockIsDeadUntilReset : Obligations.AbortedBlockIsDeadUntilReset :=
  fun _ _ ha => ⟨step_of_aborted ha, fun _ => step_of_reset⟩

/-- Settles O57: command by command. -/
theorem thisHardwareIsTheBlockAtTheDefaults : Obligations.ThisHardwareIsTheBlockAtTheDefaults :=
  ⟨exec_eq_execWith, step_eq_stepWith, rfl, fun cfg cfg' _ s h => execWith_congr cfg cfg' h s⟩

/-- Settles O14: the record is written with these values. -/
theorem configurationIsTheDefaults : Obligations.ConfigurationIsTheDefaults := rfl

/-- Settles O1: each word by evaluation. -/
theorem listedWordsDecode : Obligations.ListedWordsDecode :=
  ⟨rfl, rfl, rfl, rfl, rfl, rfl, rfl, rfl, rfl, rfl, rfl, rfl⟩

end Sys2Proof.Proofs
end
